-- ==== Sys2Proof/Word.lean ====
section
/-! DEFINITION. The fixed-width values of the block and `cdiv` (spec/00_scope.md R6, R8, R9). -/

namespace Sys2Proof

/-- A command word or a response word: one indivisible 32-bit value (R38, R49, R55). -/
abbrev Word := BitVec 32

/-- A Bit is a value in {0, 1}, one wire or one storage cell of width 1 (R6). -/
abbrev Bit := BitVec 1

/-- A Symbol is stored as its 4-bit unsigned value (R32). -/
abbrev Symbol := BitVec 4

/-- A codeword is 5 bits; bit 4 is the first in emission order (R31). -/
abbrev Codeword := BitVec 5

/-- `cdiv a b` is ⌈a / b⌉ for `b ≥ 1` (R9). -/
def cdiv (a b : Nat) : Nat := (a + b - 1) / b

end Sys2Proof
end

