-- ==== Sys2Proof/Syntax.lean ====
section
/-! DEFINITION. The host commands, one constructor per row of spec/opcode_table.json (spec/30_encoding.md R51). An index,
a length or a Symbol value is a plain non-negative integer (R35, R52); the bit of LOAD is one Bit (R53). -/

namespace Sys2Proof

/-- The eleven host commands (R51). -/
inductive Instr where
  /-- `LOAD i, b`: write input bit `b` at index `i` (R113). -/
  | load (i : Nat) (b : Bit)
  /-- `SETLEN n`: set the input length (R114). -/
  | setlen (n : Nat)
  /-- `START`: begin an encode (R115). -/
  | start
  /-- `CLEAR`: abandon any run and discard the result (R116). -/
  | clear
  /-- `RDSTAT`: read the status word (R117). -/
  | rdstat
  /-- `RDSYM k`: read one Symbol of the result (R118). -/
  | rdsym (k : Nat)
  /-- `RDENC j`: read one bit of the encoded output (R119). -/
  | rdenc (j : Nat)
  /-- `RDCT v`: read one CodeTable entry (R120). -/
  | rdct (v : Nat)
  /-- `RDSYMLEN`: read the Symbol count (R121). -/
  | rdsymlen
  /-- `RDENCLEN`: read the encoded-bit count (R122). -/
  | rdenclen
  /-- `RDINLEN`: read the input length (R123). -/
  | rdinlen
  deriving DecidableEq, Repr

end Sys2Proof
end

