-- ==== Sys2Proof/WellFormed.lean ====
section
/-! DEFINITION. Which terms of `Instr` are commands: the operands fit their fields (spec/30_encoding.md R52, R61). -/

namespace Sys2Proof

/-- The value a command carries in ARG; 0 in a command that takes no argument (R50, R51). -/
def Instr.argument : Instr → Nat
  | .load i _ => i
  | .setlen n => n
  | .start => 0
  | .clear => 0
  | .rdstat => 0
  | .rdsym k => k
  | .rdenc j => j
  | .rdct v => v
  | .rdsymlen => 0
  | .rdenclen => 0
  | .rdinlen => 0

/-- The argument fits the 24-bit ARG field (R52, R61). That the bit of LOAD fits the D field is its type (R53). -/
abbrev Instr.WellFormed (i : Instr) : Prop := i.argument < 2 ^ 24

end Sys2Proof
end

