-- ==== Sys2Proof/Decode.lean ====
section
/-! DEFINITION. The command word: its fields, the decoder, the encoder, and the opcode table (spec/30_encoding.md R49 to
R60). A command word is one indivisible 32-bit value: there is no byte order to lay out (R38; log entry 12). -/

namespace Sys2Proof

/-- The four fields of a command word (R50). -/
structure Fields where
  /-- Bits 31..28: the opcode. -/
  opc : BitVec 4
  /-- Bits 27..25: reserved. -/
  rsv : BitVec 3
  /-- Bit 24: the data bit. -/
  d : Bit
  /-- Bits 23..0: the argument. -/
  arg : BitVec 24
  deriving DecidableEq, Repr

/-- The fields of a word (R50). -/
def Fields.ofWord (w : Word) : Fields :=
  { opc := w.extractLsb' 28 4, rsv := w.extractLsb' 25 3, d := w.extractLsb' 24 1, arg := w.extractLsb' 0 24 }

/-- The word with these fields (R50). -/
def Fields.word (f : Fields) : Word := f.opc ++ f.rsv ++ f.d ++ f.arg

/-- Why a word is illegal (R54, R58). -/
inductive Reject where
  /-- Opcode 0x0 or 0xC to 0xF. -/
  | reservedOpcode (opc : BitVec 4)
  /-- A bit of RSV is set. -/
  | reservedField (rsv : BitVec 3)
  /-- D is set outside LOAD. -/
  | dataBit
  /-- ARG is nonzero in a command that takes no argument. -/
  | argumentSet (arg : BitVec 24)
  deriving DecidableEq, Repr

/-- A command whose D must be 0 and whose ARG is its operand (R54 (c)). -/
def Fields.argumentForm (f : Fields) (mk : Nat → Instr) : Except Reject Instr :=
  if f.d = 0 then .ok (mk f.arg.toNat) else .error .dataBit

/-- A command whose D and ARG must both be 0 (R54 (c), (d)). -/
def Fields.bareForm (f : Fields) (i : Instr) : Except Reject Instr :=
  if f.d = 0 then (if f.arg = 0 then .ok i else .error (.argumentSet f.arg)) else .error .dataBit

/-- The command with these fields (R51, R54). -/
def Fields.decode (f : Fields) : Except Reject Instr :=
  if f.rsv = 0 then
    match f.opc.toNat with
    | 0x1 => .ok (.load f.arg.toNat f.d)
    | 0x2 => f.argumentForm .setlen
    | 0x3 => f.bareForm .start
    | 0x4 => f.bareForm .clear
    | 0x5 => f.bareForm .rdstat
    | 0x6 => f.argumentForm .rdsym
    | 0x7 => f.argumentForm .rdenc
    | 0x8 => f.argumentForm .rdct
    | 0x9 => f.bareForm .rdsymlen
    | 0xA => f.bareForm .rdenclen
    | 0xB => f.bareForm .rdinlen
    | _ => .error (.reservedOpcode f.opc)
  else .error (.reservedField f.rsv)

/-- The decoder: total on every word (R59); an illegal word (R54) is rejected by name. -/
def decode (w : Word) : Except Reject Instr := (Fields.ofWord w).decode

/-- The opcode of each command (R51). -/
def Instr.opcode : Instr → BitVec 4
  | .load _ _ => 0x1
  | .setlen _ => 0x2
  | .start => 0x3
  | .clear => 0x4
  | .rdstat => 0x5
  | .rdsym _ => 0x6
  | .rdenc _ => 0x7
  | .rdct _ => 0x8
  | .rdsymlen => 0x9
  | .rdenclen => 0xA
  | .rdinlen => 0xB

/-- The D field of each command: the bit of LOAD, else 0 (R50, R53). -/
def Instr.dataBit : Instr → Bit
  | .load _ b => b
  | .setlen _ => 0
  | .start => 0
  | .clear => 0
  | .rdstat => 0
  | .rdsym _ => 0
  | .rdenc _ => 0
  | .rdct _ => 0
  | .rdsymlen => 0
  | .rdenclen => 0
  | .rdinlen => 0

/-- The fields of a command's word (R50, R51). -/
def Instr.fields (i : Instr) : Fields :=
  { opc := i.opcode, rsv := 0, d := i.dataBit, arg := BitVec.ofNat 24 i.argument }

/-- The word of a well-formed command (R51, R61). -/
def encode (i : Instr) : Word := i.fields.word

/-- The word of a command, or none where an operand does not fit its field: "an assembly error, not a word" (R61). -/
def assemble (i : Instr) : Option Word := if i.WellFormed then some (encode i) else none

/-- One row of the opcode table (R51). -/
structure OpcodeRow where
  mnemonic : String
  pattern : Word
  mask : Word
  deriving DecidableEq, Repr

/-- The opcode table's fixed bits (R51; spec/opcode_table.json). -/
def opcodeRows : List OpcodeRow :=
  [ ⟨"LOAD", 0x10000000, 0xFE000000⟩, ⟨"SETLEN", 0x20000000, 0xFF000000⟩,
    ⟨"START", 0x30000000, 0xFFFFFFFF⟩, ⟨"CLEAR", 0x40000000, 0xFFFFFFFF⟩,
    ⟨"RDSTAT", 0x50000000, 0xFFFFFFFF⟩, ⟨"RDSYM", 0x60000000, 0xFF000000⟩,
    ⟨"RDENC", 0x70000000, 0xFF000000⟩, ⟨"RDCT", 0x80000000, 0xFF000000⟩,
    ⟨"RDSYMLEN", 0x90000000, 0xFFFFFFFF⟩, ⟨"RDENCLEN", 0xA0000000, 0xFFFFFFFF⟩,
    ⟨"RDINLEN", 0xB0000000, 0xFFFFFFFF⟩ ]

/-- The mnemonic of each command (R51). -/
def Instr.mnemonic : Instr → String
  | .load _ _ => "LOAD"
  | .setlen _ => "SETLEN"
  | .start => "START"
  | .clear => "CLEAR"
  | .rdstat => "RDSTAT"
  | .rdsym _ => "RDSYM"
  | .rdenc _ => "RDENC"
  | .rdct _ => "RDCT"
  | .rdsymlen => "RDSYMLEN"
  | .rdenclen => "RDENCLEN"
  | .rdinlen => "RDINLEN"

/-- The mnemonics a word selects: those of the rows with `cmd AND mask = match` (R51). -/
def selectedMnemonics (w : Word) : List String :=
  (opcodeRows.filter fun r => w &&& r.mask = r.pattern).map OpcodeRow.mnemonic

/-- The command the decoder reads from a word given by its first `nbits` bits, the bits above them 0. A command word has
32 bits (R49), so more than 32 bits are no command word. -/
def decodeTableWord (nbits w : Nat) : Option Instr :=
  if nbits ≤ 32 then
    match decode (BitVec.ofNat 32 (w % 2 ^ nbits)) with
    | .ok i => some i
    | .error _ => none
  else none

end Sys2Proof
end

