-- ==== Sys2Proof/Config.lean ====
section
/-! DEFINITION. What an implementation fixes (spec/00_scope.md R5): the capacity N_MAX and the CodeTable, and the free
values of cells whose content the spec leaves open (spec/93_implementation_defined.md U7, U8). A state carries its
parameters, so a statement about every state is a statement about every N_MAX and every CodeTable. -/

namespace Sys2Proof

/-- The CodeTable ROM: 16 entries, each absent or a codeword (R29, R77). -/
abbrev CodeTable := Vector (Option Codeword) 16

/-- The entry of Symbol `v`: the spec's `CODE_TABLE(v)` (R10, R29). -/
def CodeTable.entry (t : CodeTable) (v : Symbol) : Option Codeword := t[v.toNat]

/-- An admitted CodeTable: no two present entries have the same codeword (R78). Partial tables are admitted (R82). -/
abbrev CodeTable.Admitted (t : CodeTable) : Prop :=
  ∀ v w : Symbol, v ≠ w → t.entry v ≠ none → t.entry v ≠ t.entry w

/-- A fully populated CodeTable: every Symbol has an entry (R79). -/
abbrev CodeTable.Full (t : CodeTable) : Prop := ∀ v : Symbol, t.entry v ≠ none

/-- The default configuration: admitted, fully populated, with the three entries the source gives (R79, R80). -/
abbrev CodeTable.IsDefault (t : CodeTable) : Prop :=
  t.Admitted ∧ t.Full ∧ t.entry 0x3 = some 0b10101 ∧ t.entry 0xA = some 0b10110 ∧ t.entry 0xD = some 0b11011

/-- The parameters of the hardware (R5). `S_MAX` and `E_MAX` are derived from `N_MAX`. -/
structure Params where
  /-- Input buffer capacity in bits (decision D3). -/
  nMax : Nat
  /-- The CodeTable ROM contents (decision D4). -/
  codeTable : CodeTable
  deriving DecidableEq, Repr

/-- Symbol buffer capacity, `S_MAX = cdiv(N_MAX, 4)` (R24). -/
def Params.sMax (p : Params) : Nat := cdiv p.nMax 4

/-- Encoded-bit buffer capacity, `E_MAX = 5 · S_MAX` (R25). -/
def Params.eMax (p : Params) : Nat := 5 * p.sMax

/-- The configurations the spec admits: `1 ≤ N_MAX ≤ 2^22` (R5) and an admitted CodeTable (R78). -/
abbrev Params.Admitted (p : Params) : Prop := 1 ≤ p.nMax ∧ p.nMax ≤ 2 ^ 22 ∧ p.codeTable.Admitted

/-- Building a configuration; one that R5 or R78 rules out is refused (R78: "A model refuses a configuration that
breaks this rule"). -/
def configure (nMax : Nat) (t : CodeTable) : Option Params :=
  if Params.Admitted ⟨nMax, t⟩ then some ⟨nMax, t⟩ else none

/-- `t` without the entries whose codeword a lower Symbol already has: an admitted table is left as it is, and every
table becomes an admitted one. -/
def CodeTable.withoutRepeats (t : CodeTable) : CodeTable :=
  Vector.ofFn fun v : Fin 16 => if ∃ w : Fin 16, w < v ∧ t[w] = t[v] then none else t[v]

/-- OPEN (U6, D3): nothing constrains it. -/
opaque Config.nMaxRaw : Nat

/-- OPEN (U4, U5, D4): nothing constrains it. -/
opaque Config.codeTableRaw : CodeTable

/-- The configuration of the machine that `State.reset` describes: an arbitrary admitted one, because every capacity
in `[1, 2^22]` and every admitted CodeTable is a value of this expression for some value of the two opaque constants. DESIGN CHOICE, safe: log entry 4. -/
def Config.params : Params :=
  { nMax := Config.nMaxRaw % 2 ^ 22 + 1
    codeTable := Config.codeTableRaw.withoutRepeats }

/-- FREE VALUE (U7, R21): the bit an IN_BUF cell holds that LOAD has not written since reset. A START whose input has
such a cell ends in the model fault (R135), so a run begun by START never reads one. DESIGN CHOICE, safe: log entry 6. -/
opaque Config.inCell : Nat → Bit

/-- FREE VALUE (U8, R34): the Symbol a SYM_BUF cell holds that the Sequencer has not written since reset. DESIGN CHOICE,
safe: log entry 7. -/
opaque Config.symCell : Nat → Symbol

/-- FREE VALUE (U8, R34): the bit an ENC_BUF cell holds that the Sequencer has not written since reset. DESIGN CHOICE,
safe: log entry 7. -/
opaque Config.encCell : Nat → Bit

/-- The default configuration over the OPEN parameter `CT_DEFAULT`: the entries of 3, A and D are the source's, the other
13 are `ct`'s (R80, R81). It is a default configuration exactly when `ct` meets R81's conditions. -/
def CodeTable.default (ct : Symbol → Codeword) : CodeTable :=
  Vector.ofFn fun v : Fin 16 =>
    if v = 0x3 then some 0b10101 else if v = 0xA then some 0b10110 else if v = 0xD then some 0b11011
    else some (ct (BitVec.ofNat 4 v))

/-- PRESUMED, safe, log entry 15 (spec/93_implementation_defined.md GK1, R81): the standard 4B/5B data table, one named instantiation of
`CT_DEFAULT`. The machine does not use it; a test that does says so. -/
def CodeTable.standard : CodeTable :=
  #v[some 0b11110, some 0b01001, some 0b10100, some 0b10101, some 0b01010, some 0b01011, some 0b01110, some 0b01111,
     some 0b10010, some 0b10011, some 0b10110, some 0b10111, some 0b11010, some 0b11011, some 0b11100, some 0b11101]

end Sys2Proof
end

