-- ==== Sys2Proof/Machine/State.lean ====
section
/-! DEFINITION. The state record (spec/10_state.md R18), with the two lists that stand for the block's one interface: the
steps still to come in the total order of the execution (R45), and the response words given so far (R55). -/

namespace Sys2Proof.Machine

/-- STATE, the operating state of the block (R19). -/
inductive RunState where
  /-- 0b00: no encode started since reset or the last CLEAR. -/
  | idle
  /-- 0b01: an encode is in progress. -/
  | busy
  /-- 0b10: the last encode succeeded. -/
  | done
  /-- 0b11: the last encode failed with Unknown Symbol. -/
  | error
  deriving DecidableEq, Repr

/-- The model faults, and the values of the register FAULT (R18, R135). -/
inductive Fault where
  /-- Set by START when a cell of `IN_BUF[0..IN_LEN)` has never been written since reset; every later step of either
  agent stops with it (R135). Safe: hardware would go on with a bit the spec does not fix. -/
  | unwrittenInput
  deriving DecidableEq, Repr

/-- The refusals. No step of this model answers one: every command word has a defined response (R59, R130). -/
inductive Refusal where
  /-- An instruction without a meaning. Safe. No arm of `exec` raises it. -/
  | notModelled (mnemonic : String)
  deriving DecidableEq, Repr

/-- One step of the total order in which an execution interleaves the agents' steps and reset (R39, R45, R143). -/
inductive Event where
  /-- The Host issues a command word (R109). -/
  | command (w : Word)
  /-- The Sequencer may take a step (R97). -/
  | sequencer
  /-- The block is reset (R143). -/
  | reset
  deriving DecidableEq, Repr

/-- A buffer (R35): its written cells as (index, value) pairs, indices strictly rising (`Memory.Wf`). An unlisted cell
is one that has not been written since reset; its value is not fixed (R21, R34). DEDUCED, safe: log entry 1. -/
abbrev Memory (w : Nat) := List (Nat × BitVec w)

/-- The architectural state (R18), the configuration it stands under (R5), and the two interface lists. -/
structure State where
  /-- STATE (R19). -/
  state : RunState
  /-- ERR_SYM (R20). -/
  errSym : Symbol
  /-- IN_BUF (R21). -/
  inBuf : Memory 1
  /-- IN_LEN (R22). -/
  inLen : Nat
  /-- SYM_BUF (R23). -/
  symBuf : Memory 4
  /-- SYM_LEN (R26). -/
  symLen : Nat
  /-- ENC_BUF (R25). -/
  encBuf : Memory 1
  /-- ENC_LEN (R27). -/
  encLen : Nat
  /-- K, the Sequencer's chunk index (R28). -/
  k : Nat
  /-- CODE_TABLE (R29) and N_MAX (R5): fixed before reset, never written. DESIGN CHOICE, safe: log entry 4. -/
  params : Params
  /-- FAULT, model bookkeeping (R135). -/
  fault : Option Fault
  /-- The model's own: the steps still to come, the next one first (R45). When it is empty the Host issues no more
  words, and the Sequencer takes every further step (R102). DESIGN CHOICE, safe: log entry 2. -/
  events : List Event
  /-- The model's own: the response words the Host has received, the oldest first (R55, R109). DESIGN CHOICE, safe: log
  entry 3. -/
  responses : List Word
  deriving DecidableEq, Repr

/-- The block right after reset, built with configuration `p` (R34, R144): no Host word has been issued. -/
def State.resetWith (p : Params) : State :=
  { state := .idle, errSym := 0, inBuf := [], inLen := 0, symBuf := [], symLen := 0, encBuf := [], encLen := 0, k := 0
    params := p, fault := none, events := [], responses := [] }

/-- The block right after reset, under its configuration (R34). How a word comes to be issued: log entry 2. -/
def State.reset : State := State.resetWith Config.params

end Sys2Proof.Machine
end

