-- ==== Sys2Proof/Machine/Flags.lean ====
section
/-! DEFINITION. The encodings the Host reads: STATE, the status word and the response codes (spec/10_state.md R19, R30;
spec/30_encoding.md R56). The block has no other flags. -/

namespace Sys2Proof.Machine

/-- The 2-bit encoding of STATE (R19). -/
def RunState.code : RunState → BitVec 2
  | .idle => 0b00
  | .busy => 0b01
  | .done => 0b10
  | .error => 0b11

/-- The response codes (R56). -/
inductive ResponseCode where
  /-- The command was performed. -/
  | ok
  /-- Rejected: not allowed while STATE = BUSY. -/
  | nakBusy
  /-- Rejected: index, length or value out of range. -/
  | nakRange
  /-- Rejected: the word is not legal. -/
  | nakIllegal
  deriving DecidableEq, Repr

/-- The 2-bit encoding of RC (R56). -/
def ResponseCode.code : ResponseCode → BitVec 2
  | .ok => 0b00
  | .nakBusy => 0b01
  | .nakRange => 0b10
  | .nakIllegal => 0b11

/-- The response word `{RC, DATA}` (R55). -/
def responseWord (rc : ResponseCode) (data : BitVec 30) : Word := rc.code ++ data

/-- The status word, `zext_30({ERR_SYM, STATE})` (R30). -/
def State.statusData (s : State) : BitVec 30 := (s.errSym ++ s.state.code).setWidth 30

/-- The data RDCT returns for an entry: the presence bit in bit 5 and the codeword in bits 4..0; 0 for an absent entry
(R57, R120). -/
def tableData : Option Codeword → BitVec 30
  | some c => (1#1 ++ c).setWidth 30
  | none => 0

end Sys2Proof.Machine
end

