-- ==== Sys2Proof/Machine/Ops.lean ====
section
/-! DEFINITION. The named operations over the buffers and registers: reading and writing a buffer, answering the Host,
raising and leaving the error state, reset, and what the next step of the execution is. -/

namespace Sys2Proof.Machine

/-- The buffer's canonical form: each written cell once, indices strictly rising. -/
abbrev Memory.Wf {w : Nat} (m : Memory w) : Prop := m.Pairwise fun x y => x.1 < y.1

/-- The value last written to cell `a`, or none if nothing has been since reset (R45). -/
def Memory.read {w : Nat} : Memory w → Nat → Option (BitVec w)
  | [], _ => none
  | (b, v) :: m, a => if a = b then some v else Memory.read m a

/-- `BUF[a] <- v` (R10), keeping the canonical form. -/
def Memory.write {w : Nat} : Memory w → Nat → BitVec w → Memory w
  | [], a, v => [(a, v)]
  | (b, u) :: m, a, v =>
    if a < b then (a, v) :: (b, u) :: m
    else if a = b then (a, v) :: m
    else (b, u) :: Memory.write m a v

/-- Writes to consecutive cells from `a` on, the first value first. -/
def Memory.writeSeq {w : Nat} (m : Memory w) (a : Nat) : List (BitVec w) → Memory w
  | [] => m
  | v :: vs => Memory.writeSeq (m.write a v) (a + 1) vs

/-- A step of an agent: it moves to `s'`, unless the model has faulted, after which neither agent takes a step (R135).
DEDUCED, safe: log entry 5. -/
def State.perform (s s' : State) : Host.Outcome State Fault Refusal :=
  match s.fault with
  | none => .next s'
  | some f => .fault f

/-- The one response word of a command (R55, `respond` of R10). -/
def State.respond (s : State) (rc : ResponseCode) (data : BitVec 30) : State :=
  { s with responses := s.responses ++ [responseWord rc data] }

/-- A NAK: a response with DATA = 0 and no other change (R131). -/
def State.nak (s : State) (rc : ResponseCode) : State := s.respond rc 0

/-- The second check of a command (R111): NAK BUSY while STATE = BUSY, else `s'`. -/
def State.unlessBusy (s s' : State) : State := if s.state = .busy then s.nak .nakBusy else s'

/-- The third check of a command (R112): `s'` when the argument is in range, else NAK RANGE. -/
def State.inRange (s : State) (ok : Prop) [Decidable ok] (s' : State) : State :=
  if ok then s' else s.nak .nakRange

/-- What START and CLEAR do to the registers of a run: the previous result and error are discarded and the Sequencer is
put at chunk 0 (R115, R116; leaving ERROR, R136). -/
def State.discardRun (s : State) (st : RunState) : State :=
  { s with state := st, k := 0, symLen := 0, encLen := 0, errSym := 0 }

/-- `raise UnknownSymbol(v)`: entering ERROR (R100, R129, R134). Nothing else changes. -/
def State.raiseUnknownSymbol (s : State) (v : Symbol) : State := { s with state := .error, errSym := v }

/-- The commit of a run of `n` chunks (R101). -/
def State.commit (s : State) (n : Nat) : State := { s with symLen := n, encLen := 5 * n, state := .done }

/-- Setting FAULT (R135): nothing else changes and no response is given. DEDUCED, safe: log entry 5. -/
def State.modelFault (s : State) (f : Fault) : State := { s with fault := some f }

/-- The reset event (R143): every register at its reset value and every buffer cell unwritten (R34). CODE_TABLE and
N_MAX are configuration, and FAULT is not cleared by a reset; what the Host has received and what is still to come are no
state of the block. DEDUCED and DESIGN CHOICE, safe: log entries 3 and 8. -/
def State.resetBlock (s : State) : State :=
  { State.resetWith s.params with fault := s.fault, events := s.events, responses := s.responses }

/-- The next step of the execution's total order, with the steps after it (R45). Where the order names none, the Host
issues no word and the step is the Sequencer's (weak fairness, R102). DESIGN CHOICE, safe: log entries 2 and 10. -/
def State.nextEvent (s : State) : Event × List Event :=
  match s.events with
  | [] => (.sequencer, [])
  | e :: es => (e, es)

/-- The Host issues `w` as the very next step (R109). -/
def State.issue (s : State) (w : Word) : State := { s with events := .command w :: s.events }

end Sys2Proof.Machine
end

