-- ==== Sys2Proof/Machine/Operands.lean ====
section
/-! DEFINITION. The operands of a command: the index ranges of the five spaces and the cell an index names
(spec/20_memory.md R35, R40). -/

namespace Sys2Proof.Machine

/-- `i` names a cell of IN_BUF that LOAD may write (R35, R112). -/
abbrev State.inIndex (s : State) (i : Nat) : Prop := i < s.params.nMax

/-- `n` is a length SETLEN may set (R112). -/
abbrev State.lengthInRange (s : State) (n : Nat) : Prop := n ≤ s.params.nMax

/-- `k` names a valid Symbol of the result (R35, R112). -/
abbrev State.symIndex (s : State) (k : Nat) : Prop := k < s.symLen

/-- `j` names a valid bit of the result (R35, R112). -/
abbrev State.encIndex (s : State) (j : Nat) : Prop := j < s.encLen

/-- `v` is a Symbol value (R35, R112). -/
abbrev tableIndex (v : Nat) : Prop := v < 16

/-- `SYM_BUF[k]`; a cell not written since reset holds a free value (R34, U8). -/
def State.symCell (s : State) (k : Nat) : Symbol := (s.symBuf.read k).getD (Config.symCell k)

/-- `ENC_BUF[j]`; a cell not written since reset holds a free value (R34, U8). -/
def State.encCell (s : State) (j : Nat) : Bit := (s.encBuf.read j).getD (Config.encCell j)

/-- `IN_BUF[i]`; a cell not written since reset holds a free value (R21, U7). -/
def State.inCell (s : State) (i : Nat) : Bit := (s.inBuf.read i).getD (Config.inCell i)

/-- Every cell of `IN_BUF[0..IN_LEN)` has been written since reset (R115, R135). -/
abbrev State.InputWritten (s : State) : Prop := ∀ i < s.inLen, s.inBuf.read i ≠ none

/-- The input Bitstream `[IN_BUF[0], ..., IN_BUF[IN_LEN − 1]]` (R7, R22). -/
def State.inputBits (s : State) : List Bit := (List.range s.inLen).map s.inCell

end Sys2Proof.Machine
end

