-- ==== Sys2Proof/Machine/ControlCommands.lean ====
section
/-! DEFINITION. The control commands START and CLEAR (spec/45_host_commands.md R115, R116). -/

namespace Sys2Proof.Machine

/-- START (R115): NAK BUSY; else the model fault when the input has an unwritten cell (R135); else a run begins. -/
def execStart (s : State) : Host.Outcome State Fault Refusal :=
  s.perform (s.unlessBusy
    (if s.InputWritten then (s.discardRun .busy).respond .ok 0 else s.modelFault .unwrittenInput))

/-- CLEAR (R116): allowed in every STATE (R111). -/
def execClear (s : State) : Host.Outcome State Fault Refusal :=
  s.perform ((s.discardRun .idle).respond .ok 0)

end Sys2Proof.Machine
end

