-- ==== Sys2Proof/Machine/InputCommands.lean ====
section
/-! DEFINITION. The input commands LOAD and SETLEN (spec/45_host_commands.md R113, R114). -/

namespace Sys2Proof.Machine

/-- LOAD i, b (R113): NAK BUSY, else NAK RANGE, else `IN_BUF[i] <- b`. -/
def execLoad (i : Nat) (b : Bit) (s : State) : Host.Outcome State Fault Refusal :=
  s.perform (s.unlessBusy (s.inRange (s.inIndex i) ({ s with inBuf := s.inBuf.write i b }.respond .ok 0)))

/-- SETLEN n (R114): NAK BUSY, else NAK RANGE, else `IN_LEN <- n`. -/
def execSetlen (n : Nat) (s : State) : Host.Outcome State Fault Refusal :=
  s.perform (s.unlessBusy (s.inRange (s.lengthInRange n) ({ s with inLen := n }.respond .ok 0)))

end Sys2Proof.Machine
end

