-- ==== Sys2Proof/Machine/ReadCommands.lean ====
section
/-! DEFINITION. The read commands (spec/45_host_commands.md R117 to R123). None changes any state of the block (R42), and
none has a BUSY check (R111). -/

namespace Sys2Proof.Machine

/-- RDSTAT (R117): the status word. -/
def execRdstat (s : State) : Host.Outcome State Fault Refusal := s.perform (s.respond .ok s.statusData)

/-- RDSYM k (R118): one Symbol of the result. -/
def execRdsym (k : Nat) (s : State) : Host.Outcome State Fault Refusal :=
  s.perform (s.inRange (s.symIndex k) (s.respond .ok ((s.symCell k).setWidth 30)))

/-- RDENC j (R119): one bit of the encoded output. -/
def execRdenc (j : Nat) (s : State) : Host.Outcome State Fault Refusal :=
  s.perform (s.inRange (s.encIndex j) (s.respond .ok ((s.encCell j).setWidth 30)))

/-- RDCT v (R120): one CodeTable entry. -/
def execRdct (v : Nat) (s : State) : Host.Outcome State Fault Refusal :=
  s.perform (s.inRange (tableIndex v) (s.respond .ok (tableData (s.params.codeTable.entry (BitVec.ofNat 4 v)))))

/-- RDSYMLEN (R121): `zext_30(SYM_LEN)`. -/
def execRdsymlen (s : State) : Host.Outcome State Fault Refusal :=
  s.perform (s.respond .ok (BitVec.ofNat 30 s.symLen))

/-- RDENCLEN (R122): `zext_30(ENC_LEN)`. -/
def execRdenclen (s : State) : Host.Outcome State Fault Refusal :=
  s.perform (s.respond .ok (BitVec.ofNat 30 s.encLen))

/-- RDINLEN (R123): `zext_30(IN_LEN)`. -/
def execRdinlen (s : State) : Host.Outcome State Fault Refusal :=
  s.perform (s.respond .ok (BitVec.ofNat 30 s.inLen))

end Sys2Proof.Machine
end

