-- ==== Sys2Proof/Machine/Dispatch.lean ====
section
/-! DEFINITION. One arm per host command (spec/45_host_commands.md R124). -/

namespace Sys2Proof.Machine

def exec (i : Instr) (s : State) : Host.Outcome State Fault Refusal :=
  match i with
  | .load idx b => Sys2Proof.Machine.execLoad idx b s
  | .setlen n => Sys2Proof.Machine.execSetlen n s
  | .start => Sys2Proof.Machine.execStart s
  | .clear => Sys2Proof.Machine.execClear s
  | .rdstat => Sys2Proof.Machine.execRdstat s
  | .rdsym k => Sys2Proof.Machine.execRdsym k s
  | .rdenc j => Sys2Proof.Machine.execRdenc j s
  | .rdct v => Sys2Proof.Machine.execRdct v s
  | .rdsymlen => Sys2Proof.Machine.execRdsymlen s
  | .rdenclen => Sys2Proof.Machine.execRdenclen s
  | .rdinlen => Sys2Proof.Machine.execRdinlen s

end Sys2Proof.Machine
end

