-- ==== Sys2Proof/Machine/Chunker.lean ====
section
/-! DEFINITION. The nibble_chunker (spec/40_nibble_chunker.md): the Chunker's contract, and the hardware form that reads
nibble k from IN_BUF. -/

namespace Sys2Proof.Machine

/-- A Nibble: exactly 4 Bits in input order, index 0 the first (R7, R63). -/
abbrev Nibble := Vector Bit 4

/-- `bit(i)` of R63: the input bit, or the padding bit 0 beyond the input. -/
def paddedBit (bits : List Bit) (i : Nat) : Bit := bits.getD i 0

/-- `chunk(bits, size)` (R63): consecutive groups of `size` bits, the last padded on the right with 0. The size is at
least 1 by its type, so the size 0 that R69 calls undefined cannot be written. DEDUCED, safe: log entry 14. -/
def chunk (bits : List Bit) (size : Nat) [NeZero size] : List (Vector Bit size) :=
  (List.range (cdiv bits.length size)).map fun q => Vector.ofFn fun t : Fin size => paddedBit bits (q * size + t)

/-- `inbit(i)` (R67): the input bit below IN_LEN, the padding bit 0 from there on, whatever the cell holds. -/
def State.inbit (s : State) (i : Nat) : Bit := if i < s.inLen then s.inCell i else 0

/-- `nibble(k)` (R67): chunk k of the input held in IN_BUF and IN_LEN. -/
def State.nibble (s : State) (k : Nat) : Nibble :=
  #v[s.inbit (4 * k), s.inbit (4 * k + 1), s.inbit (4 * k + 2), s.inbit (4 * k + 3)]

/-- `NCH = cdiv(IN_LEN, 4)`, the chunk count of a run (R98). -/
def State.nch (s : State) : Nat := cdiv s.inLen 4

end Sys2Proof.Machine
end

