-- ==== Sys2Proof/Machine/SymbolMapper.lean ====
section
/-! DEFINITION. The Symbol mapper (spec/41_symbol_mapper.md). A Nibble has 4 bits by its type, so the input of another
length that R73 refuses cannot be written. DEDUCED, safe: log entry 14. -/

namespace Sys2Proof.Machine

/-- `nibble_value(n)` (R71): the first bit is the most significant. -/
def nibbleValue (n : Nibble) : BitVec 4 := n[0] ++ n[1] ++ n[2] ++ n[3]

/-- `nibble_to_symbol(n)`, the stored Symbol value (R72). -/
def nibbleToSymbol (n : Nibble) : Symbol := nibbleValue n

/-- The Nibble a Symbol determines, `[v[3], v[2], v[1], v[0]]` (R74). -/
def nibbleOfSymbol (v : Symbol) : Nibble :=
  #v[v.extractLsb' 3 1, v.extractLsb' 2 1, v.extractLsb' 1 1, v.extractLsb' 0 1]

/-- `hexdigit(v)`, the character of a Symbol, with which the Host renders it (R11, R32). -/
def hexDigit (v : Symbol) : Char :=
  if v.toNat < 10 then Char.ofNat (48 + v.toNat) else Char.ofNat (55 + v.toNat)

end Sys2Proof.Machine
end

