-- ==== Sys2Proof/Machine/Lookup.lean ====
section
/-! DEFINITION. The codeword lookup (spec/42_4b5b_encoder.md R84). -/

namespace Sys2Proof.Machine

/-- The Unknown Symbol error, with the offending Symbol (R10, R129). -/
structure UnknownSymbol where
  symbol : Symbol
  deriving DecidableEq, Repr

/-- `lookup(CT, v)` (R84): the codeword, or the Unknown Symbol error iff the entry is absent. -/
def lookup (t : CodeTable) (v : Symbol) : Except UnknownSymbol Codeword :=
  match t.entry v with
  | some c => .ok c
  | none => .error ⟨v⟩

/-- The codewords of a sequence of Symbols in order; the first absent Symbol ends it (R85, R86). -/
def lookupAll (t : CodeTable) : List Symbol → Except UnknownSymbol (List Codeword)
  | [] => .ok []
  | v :: vs =>
    match lookup t v with
    | .error e => .error e
    | .ok c =>
      match lookupAll t vs with
      | .error e => .error e
      | .ok cs => .ok (c :: cs)

end Sys2Proof.Machine
end

