-- ==== Sys2Proof/Machine/Concatenator.lean ====
section
/-! DEFINITION. The bit_concatenator (spec/43_bit_concatenator.md). -/

namespace Sys2Proof.Machine

/-- `cwbits(c)`: the bits of a codeword in emission order (R91). -/
def cwbits (c : Codeword) : List Bit :=
  [c.extractLsb' 4 1, c.extractLsb' 3 1, c.extractLsb' 2 1, c.extractLsb' 1 1, c.extractLsb' 0 1]

/-- `concat_codewords(codes)` (R91). -/
def concatCodewords (codes : List Codeword) : List Bit := codes.flatMap cwbits

/-- `place(k, c)`: codeword `c` of chunk `k` into `ENC_BUF[5k..5k+5)` (R92). -/
def place (m : Memory 1) (k : Nat) (c : Codeword) : Memory 1 := m.writeSeq (5 * k) (cwbits c)

end Sys2Proof.Machine
end

