-- ==== Sys2Proof/Machine/Sequencer.lean ====
section
/-! DEFINITION. The Sequencer agent (spec/44_sequencer.md): one chunk per step, then one commit step. -/

namespace Sys2Proof.Machine

/-- The Sequencer has an enabled step (R97). -/
abbrev State.sequencerEnabled (s : State) : Prop := s.state = .busy ∧ s.fault = none

/-- The effect of a successful chunk step on Symbol `v` with codeword `c` (R99). -/
def State.encodeChunk (s : State) (v : Symbol) (c : Codeword) : State :=
  { s with symBuf := s.symBuf.write s.k v, encBuf := place s.encBuf s.k c, k := s.k + 1 }

/-- A chunk step on Symbol `v`: R99 when its codeword is present, R100 when it is absent. -/
def State.chunkStep (s : State) (v : Symbol) : State :=
  match lookup s.params.codeTable v with
  | .ok c => s.encodeChunk v c
  | .error e => s.raiseUnknownSymbol e.symbol

/-- One enabled step of the Sequencer: a chunk step while K < NCH (R99, R100), the commit step at K = NCH (R101). No
rule applies beyond NCH, which K never exceeds (R108), and nothing happens there. DEDUCED, safe: log entry 9. -/
def State.sequencerStep (s : State) : State :=
  if s.k < s.nch then s.chunkStep (nibbleToSymbol (s.nibble s.k))
  else if s.k = s.nch then s.commit s.nch
  else s

/-- The Sequencer's turn: its step if it is enabled, else nothing (R97). DESIGN CHOICE, safe: log entry 10. -/
def sequencerTurn (s : State) : Host.Outcome State Fault Refusal :=
  s.perform (if s.sequencerEnabled then s.sequencerStep else s)

end Sys2Proof.Machine
end

