-- ==== Sys2Proof/Machine/Agents.lean ====
section
/-! DEFINITION. The steps of the two agents and of reset, and which of them is the next (spec/10_state.md R17;
spec/20_memory.md R45). -/

namespace Sys2Proof.Machine

/-- An illegal word (R110): NAK ILLEGAL whatever STATE is, and no other change. -/
def execIllegal (s : State) : Host.Outcome State Fault Refusal := s.perform (s.nak .nakIllegal)

/-- The Host step for one word: `host_step(cmd)` (R124). -/
def hostStep (w : Word) (s : State) : Host.Outcome State Fault Refusal :=
  match decode w with
  | .ok i => exec i s
  | .error _ => execIllegal s

/-- One event of the total order (R45). Reset is no agent's step: it takes place in a faulted model too, and leaves
FAULT set (R143). DEDUCED, safe: log entry 8. -/
def performEvent (e : Event) (s : State) : Host.Outcome State Fault Refusal :=
  match e with
  | .command w => hostStep w s
  | .sequencer => sequencerTurn s
  | .reset => .next s.resetBlock

/-- The next step of the execution (R45). -/
def nextStep (s : State) : Host.Outcome State Fault Refusal :=
  performEvent s.nextEvent.1 { s with events := s.nextEvent.2 }

end Sys2Proof.Machine
end

