-- ==== Sys2Proof/Machine/Step.lean ====
section
/-! DEFINITION. One atomic step of the machine, and how a command word is put before it. -/

namespace Sys2Proof.Machine

/-- One atomic step: the Host's, the Sequencer's or reset, as the execution's order says (R39, R45). -/
def step (s : State) : Host.Outcome State Fault Refusal := nextStep s

/-- `s` with the command word whose first `nbits` bits are `w`, the bits above them 0, issued by the Host as the very
next step (R109). -/
def State.withFetchWord (s : State) (nbits w : Nat) : State := s.issue (BitVec.ofNat 32 (w % 2 ^ nbits))

end Sys2Proof.Machine
end

