-- ==== Sys2Proof/Machine/Assembler.lean ====
section
/-! DEFINITION. The spec's assembler text and pseudo-instructions (spec/30_encoding.md R61, R62). The block never sees
either: they are how the Host spells the words it issues. What R61 leaves open of the text (blanks, the case of a digit and
of a mnemonic) is a DESIGN CHOICE, unsafe for a claim about texts: log entry 13. -/

namespace Sys2Proof.Machine

/-- The value of a decimal digit. -/
def decDigit? (c : Char) : Option Nat :=
  if 48 ≤ c.toNat ∧ c.toNat ≤ 57 then some (c.toNat - 48) else none

/-- The value of a hexadecimal digit, of either case. -/
def hexDigit? (c : Char) : Option Nat :=
  if 48 ≤ c.toNat ∧ c.toNat ≤ 57 then some (c.toNat - 48)
  else if 65 ≤ c.toNat ∧ c.toNat ≤ 70 then some (c.toNat - 55)
  else if 97 ≤ c.toNat ∧ c.toNat ≤ 102 then some (c.toNat - 87)
  else none

/-- The number whose digits, after those of `acc`, are the characters. -/
def digitsValue (base : Nat) (digit? : Char → Option Nat) (acc : Nat) : List Char → Option Nat
  | [] => some acc
  | c :: cs =>
    match digit? c with
    | some d => digitsValue base digit? (acc * base + d) cs
    | none => none

/-- A number: decimal, or hexadecimal with `0x` (R61). -/
def parseNumber : List Char → Option Nat
  | [] => none
  | ['0', 'x'] => none
  | '0' :: 'x' :: cs => digitsValue 16 hexDigit? 0 cs
  | c :: cs => digitsValue 10 decDigit? 0 (c :: cs)

/-- A blank or a tab. -/
def isBlank (c : Char) : Bool := c = ' ' || c = '\t'

/-- The characters without blanks at either end. -/
def trimBlanks (cs : List Char) : List Char := ((cs.dropWhile isBlank).reverse.dropWhile isBlank).reverse

/-- The pieces between commas. -/
def splitCommas : List Char → List (List Char)
  | [] => [[]]
  | c :: cs =>
    if c = ',' then [] :: splitCommas cs
    else
      match splitCommas cs with
      | [] => [[c]]
      | p :: ps => (c :: p) :: ps

/-- The operands of a line: none for an empty text, else the numbers between its commas (R61). -/
def parseOperands (cs : List Char) : Option (List Nat) :=
  match trimBlanks cs with
  | [] => some []
  | c :: cs => (splitCommas (c :: cs)).mapM fun p => parseNumber (trimBlanks p)

/-- The operands of a command in the order its line gives them (R61). -/
def operandsOf : Instr → List Nat
  | .load i b => [i, b.toNat]
  | .setlen n => [n]
  | .start => []
  | .clear => []
  | .rdstat => []
  | .rdsym k => [k]
  | .rdenc j => [j]
  | .rdct v => [v]
  | .rdsymlen => []
  | .rdenclen => []
  | .rdinlen => []

/-- The word of a mnemonic with its operands, or none for an assembly error: an unknown form, or "an operand that does
not fit its field" (R61). -/
def lineWord (mnemonic : String) (operands : List Nat) : Option Word :=
  match mnemonic, operands with
  | "LOAD", [i, b] => if b < 2 then assemble (.load i (BitVec.ofNat 1 b)) else none
  | "SETLEN", [n] => assemble (.setlen n)
  | "START", [] => assemble .start
  | "CLEAR", [] => assemble .clear
  | "RDSTAT", [] => assemble .rdstat
  | "RDSYM", [k] => assemble (.rdsym k)
  | "RDENC", [j] => assemble (.rdenc j)
  | "RDCT", [v] => assemble (.rdct v)
  | "RDSYMLEN", [] => assemble .rdsymlen
  | "RDENCLEN", [] => assemble .rdenclen
  | "RDINLEN", [] => assemble .rdinlen
  | ".word", [w] => if w < 2 ^ 32 then some (BitVec.ofNat 32 w) else none
  | _, _ => none

/-- One line of assembler text (R61): the words it stands for (none for a line without a command), or none for an
assembly error. -/
def assembleLine (text : String) : Option (List Word) :=
  match trimBlanks (text.toList.takeWhile (· ≠ ';')) with
  | [] => some []
  | c :: cs =>
    match parseOperands ((c :: cs).dropWhile fun x => !isBlank x) with
    | none => none
    | some ops => (lineWord (String.ofList ((c :: cs).takeWhile fun x => !isBlank x)) ops).map fun w => [w]

/-- `LOADBITS bits` (R62): `LOAD 0, b0` ... `LOAD n-1, b(n-1)`, then `SETLEN n`. -/
def loadBits (bits : List Bit) : List Instr :=
  bits.zipIdx.map (fun p => .load p.2 p.1) ++ [.setlen bits.length]

/-- Whether `WAIT` (R62) ends on this response to RDSTAT: `DATA[1:0] ≠ 0b01`. -/
def waitEnds (response : Word) : Bool := response.extractLsb' 0 2 ≠ 0b01

/-- `WAIT` (R62) when its loop in the Host ends at the `n`-th response: `n` times RDSTAT. -/
def waitPolls (n : Nat) : List Instr := List.replicate n .rdstat

/-- `ENCODE bits` (R62), its WAIT ending at the `n`-th poll. -/
def encodeCommands (bits : List Bit) (n : Nat) : List Instr := loadBits bits ++ [.start] ++ waitPolls n

/-- `READSYMS` (R62) when RDSYMLEN gives `n`. -/
def readSyms (n : Nat) : List Instr := .rdsymlen :: (List.range n).map .rdsym

/-- `READBITS` (R62) when RDENCLEN gives `n`. -/
def readBits (n : Nat) : List Instr := .rdenclen :: (List.range n).map .rdenc

end Sys2Proof.Machine
end

