-- ==== Sys2Proof/Machine/Encoder.lean ====
section
/-! DEFINITION. The document's `encode` function, the functional specification of one run (spec/42_4b5b_encoder.md R85).
The machine does not evaluate it; a run of the Sequencer is proved equal to it. -/

namespace Sys2Proof.Machine

/-- An EncodedOutput: the Symbols and the flat sequence of encoded bits (R85). -/
structure EncodedOutput where
  symbols : List Symbol
  bits : List Bit
  deriving DecidableEq, Repr

/-- The Symbols of an input, in chunk order (R85 steps 1 and 2). -/
def symbolsOf (bits : List Bit) : List Symbol := (chunk bits 4).map nibbleToSymbol

/-- `encode(CT, bits)` (R85). -/
def encodeBits (t : CodeTable) (bits : List Bit) : Except UnknownSymbol EncodedOutput :=
  match lookupAll t (symbolsOf bits) with
  | .ok codes => .ok ⟨symbolsOf bits, concatCodewords codes⟩
  | .error e => .error e

end Sys2Proof.Machine
end

