-- ==== Sys2Proof/Safety.lean ====
section
/-! DEFINITION. The terms claims are stated in: the invariant of the reachable states (spec/10_state.md R33), what it is
for two states to agree in all but the interface, and which events end a run. -/

namespace Sys2Proof.Machine

/-- Chunk `q` stands encoded in the buffers: `SYM_BUF[q]` holds a Symbol with a present codeword, and
`ENC_BUF[5q..5q+5)` holds that codeword's bits in emission order (R92, R99). -/
def State.Coded (s : State) (q : Nat) : Prop :=
  ∃ v c, s.symBuf.read q = some v ∧ s.params.codeTable.entry v = some c ∧
    ∀ t < 5, s.encBuf.read (5 * q + t) = (cwbits c)[t]?

/-- What holds in every reachable state (R33, with the bounds of R18 and R24, R25). -/
structure State.Inv (s : State) : Prop where
  /-- The configuration is an admitted one (R5, R78). -/
  admitted : s.params.Admitted
  /-- IN_BUF is in canonical form. -/
  inWf : s.inBuf.Wf
  /-- SYM_BUF is in canonical form. -/
  symWf : s.symBuf.Wf
  /-- ENC_BUF is in canonical form. -/
  encWf : s.encBuf.Wf
  /-- IN_BUF has cells [0, N_MAX) only (R18, R35). -/
  inBound : ∀ i, s.inBuf.read i ≠ none → i < s.params.nMax
  /-- SYM_BUF has cells [0, S_MAX) only (R18, R35). -/
  symBound : ∀ k, s.symBuf.read k ≠ none → k < s.params.sMax
  /-- ENC_BUF has cells [0, E_MAX) only (R18, R35). -/
  encBound : ∀ j, s.encBuf.read j ≠ none → j < s.params.eMax
  /-- IN_LEN ≤ N_MAX (R22). -/
  inLen_le : s.inLen ≤ s.params.nMax
  /-- K ≤ S_MAX (R16, R18). -/
  k_le : s.k ≤ s.params.sMax
  /-- R33 (a). -/
  noResult : s.state ≠ .done → s.symLen = 0 ∧ s.encLen = 0
  /-- R33 (b); SYM_LEN is the chunk count of the run, which K still holds (R99, R101). -/
  result : s.state = .done → s.encLen = 5 * s.symLen ∧ s.symLen = s.k
  /-- R33 (c). -/
  busyChunk : s.state = .busy → s.k ≤ s.nch
  /-- R33 (d); in BUSY too, since START writes 0 (R20). -/
  noError : s.state ≠ .error → s.errSym = 0
  /-- In IDLE no chunk is encoded: reset and CLEAR put K at 0 (R28). -/
  idleChunk : s.state = .idle → s.k = 0
  /-- In ERROR the reported Symbol is one that CODE_TABLE lacks (R100, R129). -/
  errorAbsent : s.state = .error → s.params.codeTable.entry s.errSym = none
  /-- A run's input is written: START saw to it (R115), and nothing unwrites a cell (R103). -/
  busyInput : s.state = .busy → s.InputWritten
  /-- In a run the Symbols so far are those of the input's chunks (R99, R103). -/
  busySymbols : s.state = .busy → ∀ q < s.k, s.symBuf.read q = some (nibbleToSymbol (s.nibble q))
  /-- Every chunk counted by K stands encoded (R99). -/
  coded : ∀ q < s.k, s.Coded q

/-- `t` is `s` in every register, buffer cell and FAULT; the two may differ in the responses given and the steps still
to come (R112: "Every NAK leaves every register, buffer cell and FAULT exactly as it was"). -/
def State.SameBlock (s t : State) : Prop := t = { s with events := t.events, responses := t.responses }

/-- The commands that have a BUSY check (R111). -/
def HasBusyCheck (i : Instr) : Prop := (∃ a b, i = .load a b) ∨ (∃ n, i = .setlen n) ∨ i = .start

/-- The read commands (R42). -/
def IsRead (i : Instr) : Prop :=
  i = .rdstat ∨ (∃ k, i = .rdsym k) ∨ (∃ j, i = .rdenc j) ∨ (∃ v, i = .rdct v) ∨ i = .rdsymlen ∨ i = .rdenclen ∨
    i = .rdinlen

/-- The argument of the command is out of range for its space (R112). -/
def State.OutOfRange (s : State) (i : Instr) : Prop :=
  (∃ a b, i = .load a b ∧ s.params.nMax ≤ a) ∨ (∃ n, i = .setlen n ∧ s.params.nMax < n) ∨
    (∃ k, i = .rdsym k ∧ s.symLen ≤ k) ∨ (∃ j, i = .rdenc j ∧ s.encLen ≤ j) ∨ (∃ v, i = .rdct v ∧ 16 ≤ v)

/-- START would meet the model fault: it passes its checks and the input has a cell LOAD never wrote (R115, R135). -/
def State.StartFaults (s : State) (i : Instr) : Prop := i = .start ∧ s.state ≠ .busy ∧ ¬s.InputWritten

/-- A run has ended: STATE is DONE or ERROR, and the model has not faulted (R106: "A state with FAULT ≠ none is never the
end of a run either"). -/
def State.RunEnded (s : State) : Prop := (s.state = .done ∨ s.state = .error) ∧ s.fault = none

/-- A run has ended, and the result registers and buffers hold the EncodedOutput `out` (R104 (a), R106). -/
def State.Holds (s : State) (out : EncodedOutput) : Prop :=
  s.RunEnded ∧ s.state = .done ∧ s.errSym = 0 ∧ s.symLen = out.symbols.length ∧ s.encLen = out.bits.length ∧
    (∀ q < out.symbols.length, s.symBuf.read q = out.symbols[q]?) ∧
    (∀ j < out.bits.length, s.encBuf.read j = out.bits[j]?)

/-- A run has ended, and the block reports Unknown Symbol `v` and no output (R104 (b), R106). -/
def State.Reports (s : State) (v : Symbol) : Prop :=
  s.RunEnded ∧ s.state = .error ∧ s.errSym = v ∧ s.symLen = 0 ∧ s.encLen = 0

/-- The events that cut a run short: reset, and the word CLEAR (R104, R108). -/
def Event.EndsRun (e : Event) : Prop := e = .reset ∨ e = .command 0x40000000

/-- A state that some execution of the block built with configuration `p` reaches: from reset, with any order of events
to come, by steps (R45, R143). -/
inductive State.Reachable (p : Params) : State → Prop where
  | reset (es : List Event) : Reachable p { State.resetWith p with events := es }
  | step (s t : State) : Reachable p s → Sys2Proof.Machine.step s = .next t → Reachable p t

end Sys2Proof.Machine
end

