-- ==== Sys2Proof/Certificates/Slice0/Obligations.lean ====
section
/-! DEFINITION. The statements for the provers. A response word is written as the number the spec's response table gives
it: OK 0x00000000 with DATA, NAK BUSY 0x40000000, NAK RANGE 0x80000000, NAK ILLEGAL 0xC0000000 (R56). That the order of the
steps still to come (R45) and the responses given (R55) are held in State.events and State.responses is how the model
writes them (log entries 2 and 3). -/

open Sys2Proof Sys2Proof.Machine

/-! ## Command words -/

/-- Words written out from the spec's encodings (R51; 95_test_vectors.md V55 to V72) decode as it says. -/
def Obligations.SpecWordsDecodeAsTheirCommands : Prop :=
  decode 0x11000003 = .ok (.load 3 1) ∧ decode 0x2000000B = .ok (.setlen 11) ∧ decode 0x30000000 = .ok .start ∧
    decode 0x60000002 = .ok (.rdsym 2) ∧ decode 0x8000000F = .ok (.rdct 15) ∧
    (∃ r, decode 0x00000000 = .error r) ∧ (∃ r, decode 0x12000000 = .error r) ∧ (∃ r, decode 0x21000000 = .error r) ∧
    (∃ r, decode 0x30000001 = .error r)

/-- Decoding the word of a well-formed command gives the command back, at every operand (R50, R51). -/
def Obligations.DecodingInvertsEncoding : Prop :=
  ∀ i : Instr, i.WellFormed → decode (encode i) = .ok i

/-- A word that decodes is the word of the command it decodes to: no bit of a legal word is dropped (R50, R51). -/
def Obligations.DecodedCommandEncodesToItsWord : Prop :=
  ∀ (w : Word) (i : Instr), decode w = .ok i → i.WellFormed ∧ encode i = w

/-- R59: every word is either legal, and selects exactly one row of the opcode table, which is its command's, or illegal,
and selects none. -/
def Obligations.LegalWordSelectsExactlyOneRow : Prop :=
  ∀ w : Word, (∃ i, decode w = .ok i ∧ selectedMnemonics w = [i.mnemonic]) ∨
    (∃ r, decode w = .error r ∧ selectedMnemonics w = [])

/-- From R61: a mnemonic with its operands has exactly the word of the command they spell, and none where an operand does
not fit; a `.word` has the word as given. -/
def Obligations.AssemblerSpellsTheCommands : Prop :=
  (∀ i : Instr, lineWord i.mnemonic (operandsOf i) = assemble i) ∧
  (∀ (m : String) (ops : List Nat) (w : Word), lineWord m ops = some w → m ≠ ".word" →
    ∃ i, m = i.mnemonic ∧ ops = operandsOf i ∧ decode w = .ok i) ∧
  (∀ (n : Nat) (w : Word), lineWord ".word" [n] = some w ↔ n = w.toNat)

/-! ## The step of the machine -/

/-- When the next event is a command word that decodes to `i`, the step is `exec i` on the state with that event taken
off the order; nothing else stands around `exec` (R109, R124). -/
def Obligations.StepRunsTheDecodedCommand : Prop :=
  ∀ (s : State) (w : Word) (es : List Event) (i : Instr),
    s.events = .command w :: es → decode w = .ok i → step s = exec i { s with events := es }

/-- R54: a word is legal iff OPC is 1 to 0xB, RSV = 0, D = 0 outside LOAD, and ARG = 0 in the commands without an
argument, the fields written as arithmetic on the word's value (R50); and R110: an illegal word returns NAK ILLEGAL
whatever STATE is, and changes no state. -/
def Obligations.LegalWordsAndTheNakOfAnIllegalOne : Prop :=
  (∀ w : Word, (∃ i, decode w = .ok i) ↔
    (1 ≤ w.toNat / 2 ^ 28 ∧ w.toNat / 2 ^ 28 ≤ 0xB) ∧ w.toNat / 2 ^ 25 % 8 = 0 ∧
      (w.toNat / 2 ^ 28 = 1 ∨ w.toNat / 2 ^ 24 % 2 = 0) ∧
      (w.toNat / 2 ^ 28 ∈ [3, 4, 5, 9, 0xA, 0xB] → w.toNat % 2 ^ 24 = 0)) ∧
  (∀ (s : State) (w : Word) (es : List Event),
    s.events = .command w :: es → s.fault = none → (∀ i, decode w ≠ .ok i) →
    step s = .next { s with events := es, responses := s.responses ++ [0xC0000000] })

/-- R111: while STATE = BUSY a LOAD, SETLEN or START gets NAK BUSY and changes no state; CLEAR and every read, in every
STATE, gets a response with another code. -/
def Obligations.BusyRejectsInputAndStart : Prop :=
  ∀ (s : State) (i : Instr), s.fault = none →
    (HasBusyCheck i → s.state = .busy →
      exec i s = .next { s with responses := s.responses ++ [0x40000000] }) ∧
    (i = .clear ∨ IsRead i →
      ∃ t r, exec i s = .next t ∧ t.responses = s.responses ++ [r] ∧ r.extractLsb' 30 2 ≠ 0b01)

/-- R112: a command that passes the BUSY check and whose argument is out of range gets NAK RANGE and changes no state; and
every NAK leaves every register, buffer cell and FAULT as it was. -/
def Obligations.OutOfRangeArgumentGetsNakRange : Prop :=
  (∀ (s : State) (i : Instr), s.fault = none → ¬(HasBusyCheck i ∧ s.state = .busy) → s.OutOfRange i →
    exec i s = .next { s with responses := s.responses ++ [0x80000000] }) ∧
  (∀ (s t : State) (w r : Word) (es : List Event), s.events = .command w :: es → step s = .next t →
    t.responses = s.responses ++ [r] → r.extractLsb' 30 2 ≠ 0b00 → s.SameBlock t)

/-- From R132: the checks apply in the order ILLEGAL, BUSY, RANGE, and the first that applies gives the response; a command
that passes all three gets OK, but for the START that meets the model fault (R135). That this START answers a next state,
gives no response and sets FAULT is log entry 5. -/
def Obligations.ResponseFollowsTheCheckOrder : Prop :=
  ∀ (s : State) (w : Word) (es : List Event), s.events = .command w :: es → s.fault = none →
    ∃ t, step s = .next t ∧
      ((∃ e, decode w = .error e ∧ t.responses = s.responses ++ [0xC0000000]) ∨
       (∃ i, decode w = .ok i ∧
          ((HasBusyCheck i ∧ s.state = .busy ∧ t.responses = s.responses ++ [0x40000000]) ∨
           (¬(HasBusyCheck i ∧ s.state = .busy) ∧ s.OutOfRange i ∧ t.responses = s.responses ++ [0x80000000]) ∨
           (¬(HasBusyCheck i ∧ s.state = .busy) ∧ ¬s.OutOfRange i ∧ ¬s.StartFaults i ∧
              ∃ r, t.responses = s.responses ++ [r] ∧ r.extractLsb' 30 2 = 0b00) ∨
           (s.StartFaults i ∧ t.responses = s.responses ∧ t.fault = some .unwrittenInput))))

/-- R55: every command word returns exactly one response word; commands that read nothing return DATA = 0, and so does
every NAK. (A START that meets the model fault is no response of the hardware: R135, log entry 5.) -/
def Obligations.EveryCommandWordGetsOneResponse : Prop :=
  ∀ (s : State) (w : Word) (es : List Event), s.events = .command w :: es → s.fault = none →
    (∀ i, decode w = .ok i → ¬s.StartFaults i) →
    ∃ t r, step s = .next t ∧ t.responses = s.responses ++ [r] ∧
      (r.extractLsb' 30 2 ≠ 0b00 → r.extractLsb' 0 30 = 0) ∧
      (∀ i, decode w = .ok i → HasBusyCheck i ∨ i = .clear → r.extractLsb' 0 30 = 0)

/-! ## The host commands -/

/-- R113: LOAD. The stored cell is IN_BUF[a]; no other cell and nothing else but the response changes. -/
def Obligations.LoadWritesOneInputBit : Prop :=
  ∀ (s : State) (a : Nat) (b : Bit), s.fault = none →
    (s.state = .busy → exec (.load a b) s = .next { s with responses := s.responses ++ [0x40000000] }) ∧
    (s.state ≠ .busy → s.params.nMax ≤ a →
      exec (.load a b) s = .next { s with responses := s.responses ++ [0x80000000] }) ∧
    (s.state ≠ .busy → a < s.params.nMax →
      ∃ t, exec (.load a b) s = .next t ∧
        t = { s with inBuf := t.inBuf, responses := s.responses ++ [0x00000000] } ∧
        t.inBuf.read a = some b ∧ ∀ i, i ≠ a → t.inBuf.read i = s.inBuf.read i)

/-- R114: SETLEN. IN_LEN takes the value n; IN_BUF, STATE, the result and everything else stay. -/
def Obligations.SetlenWritesTheInputLength : Prop :=
  ∀ (s : State) (n : Nat), s.fault = none →
    (s.state = .busy → exec (.setlen n) s = .next { s with responses := s.responses ++ [0x40000000] }) ∧
    (s.state ≠ .busy → s.params.nMax < n →
      exec (.setlen n) s = .next { s with responses := s.responses ++ [0x80000000] }) ∧
    (s.state ≠ .busy → n ≤ s.params.nMax →
      exec (.setlen n) s = .next { s with inLen := n, responses := s.responses ++ [0x00000000] })

/-- From R115: START, from IDLE, DONE and ERROR. With every cell of the input written a run begins; with one unwritten only
FAULT changes, there is no response, and the lines of R115 after model_fault are not performed: that third clause is log
entry 5, from R130 and R135. -/
def Obligations.StartBeginsARun : Prop :=
  ∀ s : State, s.fault = none →
    (s.state = .busy → exec .start s = .next { s with responses := s.responses ++ [0x40000000] }) ∧
    (s.state ≠ .busy → (∀ i < s.inLen, s.inBuf.read i ≠ none) →
      exec .start s = .next { s with state := .busy, k := 0, symLen := 0, encLen := 0, errSym := 0,
                                     responses := s.responses ++ [0x00000000] }) ∧
    (s.state ≠ .busy → (∃ i < s.inLen, s.inBuf.read i = none) →
      exec .start s = .next { s with fault := some .unwrittenInput })

/-- R116: CLEAR, in every STATE. IN_BUF and IN_LEN are kept, and so is everything else it does not name; in IDLE it
changes nothing. -/
def Obligations.ClearDiscardsRunAndResult : Prop :=
  ∀ s : State, s.fault = none →
    exec .clear s = .next { s with state := .idle, k := 0, symLen := 0, encLen := 0, errSym := 0,
                                   responses := s.responses ++ [0x00000000] } ∧
    (s.Inv → s.state = .idle → exec .clear s = .next { s with responses := s.responses ++ [0x00000000] })

/-- R117: RDSTAT returns zext_30({ERR_SYM, STATE}) in every STATE, which is 1 in BUSY, and changes nothing. -/
def Obligations.RdstatReturnsTheStatusWord : Prop :=
  ∀ s : State, s.fault = none →
    ∃ r : Word, exec .rdstat s = .next { s with responses := s.responses ++ [r] } ∧
      (r.toNat = 4 * s.errSym.toNat +
        match s.state with
        | .idle => 0
        | .busy => 1
        | .done => 2
        | .error => 3) ∧
      (s.Inv → s.state = .busy → r.toNat = 1)

/-- R118: RDSYM. A valid Symbol is returned as its value, and in every state of the invariant it is one that the
Sequencer wrote; an index from SYM_LEN on gets NAK RANGE, which every index is outside DONE. Nothing changes. -/
def Obligations.RdsymReturnsTheSymbol : Prop :=
  ∀ (s : State) (k : Nat), s.fault = none →
    (s.symLen ≤ k → exec (.rdsym k) s = .next { s with responses := s.responses ++ [0x80000000] }) ∧
    (k < s.symLen → ∃ r : Word, exec (.rdsym k) s = .next { s with responses := s.responses ++ [r] } ∧
      r.toNat < 16 ∧ (∀ v, s.symBuf.read k = some v → r.toNat = v.toNat) ∧ (s.Inv → s.symBuf.read k ≠ none)) ∧
    (s.Inv → s.state ≠ .done → s.symLen ≤ k)

/-- R119: RDENC. A valid bit is returned in bit 0, and in every state of the invariant it is the bit at position j mod 5 of
the codeword of Symbol j div 5; an index from ENC_LEN on gets NAK RANGE. Nothing changes. -/
def Obligations.RdencReturnsTheBit : Prop :=
  ∀ (s : State) (j : Nat), s.fault = none →
    (s.encLen ≤ j → exec (.rdenc j) s = .next { s with responses := s.responses ++ [0x80000000] }) ∧
    (j < s.encLen → ∃ r : Word, exec (.rdenc j) s = .next { s with responses := s.responses ++ [r] } ∧
      r.toNat < 2 ∧ (∀ b, s.encBuf.read j = some b → r.toNat = b.toNat) ∧
      (s.Inv → ∃ v c, s.symBuf.read (j / 5) = some v ∧ s.params.codeTable.entry v = some c ∧
        s.encBuf.read j = some (c.extractLsb' (4 - j % 5) 1)))

/-- R120: RDCT, in every STATE. Nothing changes. -/
def Obligations.RdctReturnsTheTableEntry : Prop :=
  ∀ (s : State) (v : Nat), s.fault = none →
    (16 ≤ v → exec (.rdct v) s = .next { s with responses := s.responses ++ [0x80000000] }) ∧
    (∀ c : Codeword, v < 16 → s.params.codeTable.entry (BitVec.ofNat 4 v) = some c →
      ∃ r : Word, exec (.rdct v) s = .next { s with responses := s.responses ++ [r] } ∧ r.toNat = 32 + c.toNat) ∧
    (v < 16 → s.params.codeTable.entry (BitVec.ofNat 4 v) = none →
      exec (.rdct v) s = .next { s with responses := s.responses ++ [0x00000000] })

/-- R121, R122, R123: the length reads, in every state of the invariant. The Symbol count is 0 outside DONE, and in DONE
after a START on the empty input and the Sequencer's turn, whatever comes after them; the bit count is five times the Symbol count. Nothing changes. -/
def Obligations.LengthReadsReturnTheLengths : Prop :=
  ∀ s : State, s.Inv → s.fault = none →
    (∃ r : Word, exec .rdsymlen s = .next { s with responses := s.responses ++ [r] } ∧ r.toNat = s.symLen ∧
      (s.state ≠ .done → r.toNat = 0) ∧
      (∀ es, s.state ≠ .busy → s.inLen = 0 → s.events = .command 0x30000000 :: .sequencer :: es →
        ∃ t, Sys2Proof.core.run 2 s = .next t ∧ t.state = .done ∧
          exec .rdsymlen t = .next { t with responses := t.responses ++ [0x00000000] })) ∧
    (∃ r : Word, exec .rdenclen s = .next { s with responses := s.responses ++ [r] } ∧ r.toNat = s.encLen ∧
      r.toNat = 5 * s.symLen) ∧
    (∃ r : Word, exec .rdinlen s = .next { s with responses := s.responses ++ [r] } ∧ r.toNat = s.inLen)

/-- R42: a read changes no state, so that repeating it returns the same value; repeating a LOAD or a SETLEN leaves the
same state. -/
def Obligations.ReadsHaveNoSideEffect : Prop :=
  (∀ (s : State) (i : Instr), IsRead i → s.fault = none →
    ∃ r, exec i s = .next { s with responses := s.responses ++ [r] } ∧
      exec i { s with responses := s.responses ++ [r] } = .next { s with responses := s.responses ++ [r] ++ [r] }) ∧
  (∀ (s t : State) (i : Instr), ((∃ a b, i = .load a b) ∨ (∃ n, i = .setlen n)) → exec i s = .next t →
    ∃ u, exec i t = .next u ∧ t.SameBlock u)

/-- R62: after the commands of LOADBITS, issued one by one outside a run, the input is exactly the given Bitstream, every
cell of it written, and the steps still to come are those that stood after them. -/
def Obligations.LoadbitsLeavesTheGivenInput : Prop :=
  ∀ (s : State) (bits : List Bit) (rest : List Event), s.fault = none → s.state ≠ .busy →
    bits.length ≤ s.params.nMax → s.params.nMax ≤ 2 ^ 22 →
    s.events = (loadBits bits).map (fun i => .command (encode i)) ++ rest →
    ∃ t, Sys2Proof.core.run (bits.length + 1) s = .next t ∧ t.inLen = bits.length ∧ t.InputWritten ∧
      t.inputBits = bits ∧ t.state = s.state ∧ t.events = rest

/-! ## The Sequencer -/

/-- From R97: outside BUSY the Sequencer's turn changes nothing, and in a faulted model it is the outcome fault; the turn it
has when no event is to come is one of them. That a disabled turn answers the state it met is log entry 10, that a faulted
model answers a fault is log entry 5 (R135), and the turn with no event to come is log entry 2. -/
def Obligations.DisabledSequencerDoesNothing : Prop :=
  ∀ s : State, s.nextEvent.1 = .sequencer →
    (s.fault = none → s.state ≠ .busy → step s = .next { s with events := s.nextEvent.2 }) ∧
    (∀ f, s.fault = some f → step s = .fault f)

/-- R99: the chunk step on a present codeword. It stores SYM_BUF[K] and ENC_BUF[5K..5K+5), the first bit the codeword's
most significant, counts K up, and changes nothing else. -/
def Obligations.ChunkStepStoresSymbolAndCodeword : Prop :=
  ∀ (s : State) (es : List Event) (c : Codeword), s.events = .sequencer :: es → s.state = .busy → s.fault = none →
    s.k < cdiv s.inLen 4 → s.params.codeTable.entry (nibbleValue (s.nibble s.k)) = some c →
    ∃ t, step s = .next t ∧
      t = { s with symBuf := t.symBuf, encBuf := t.encBuf, k := s.k + 1, events := es } ∧
      t.symBuf.read s.k = some (nibbleValue (s.nibble s.k)) ∧
      (∀ q, q ≠ s.k → t.symBuf.read q = s.symBuf.read q) ∧
      (∀ x < 5, t.encBuf.read (5 * s.k + x) = some (c.extractLsb' (4 - x) 1)) ∧
      (∀ j, j < 5 * s.k ∨ 5 * s.k + 5 ≤ j → t.encBuf.read j = s.encBuf.read j)

/-- R100: the chunk step on an absent codeword, the Unknown Symbol error: STATE and ERR_SYM change and nothing else. -/
def Obligations.ChunkStepRaisesUnknownSymbol : Prop :=
  ∀ (s : State) (es : List Event), s.events = .sequencer :: es → s.state = .busy → s.fault = none →
    s.k < cdiv s.inLen 4 → s.params.codeTable.entry (nibbleValue (s.nibble s.k)) = none →
    step s = .next { s with state := .error, errSym := nibbleValue (s.nibble s.k), events := es }

/-- R101: the commit step. -/
def Obligations.CommitStepMakesTheResultVisible : Prop :=
  ∀ (s : State) (es : List Event), s.events = .sequencer :: es → s.state = .busy → s.fault = none →
    s.k = cdiv s.inLen 4 →
    step s = .next { s with symLen := cdiv s.inLen 4, encLen := 5 * cdiv s.inLen 4, state := .done, events := es }

/-- R103: no Sequencer step writes IN_BUF, IN_LEN, CODE_TABLE or FAULT, and while STATE = BUSY no command but CLEAR changes
IN_BUF, IN_LEN or K. -/
def Obligations.RunReadsTheInputAsItStoodAtStart : Prop :=
  (∀ (s t : State) (es : List Event), s.events = .sequencer :: es → step s = .next t →
    t.inBuf = s.inBuf ∧ t.inLen = s.inLen ∧ t.params = s.params ∧ t.fault = s.fault) ∧
  (∀ (s t : State) (w : Word) (es : List Event), s.events = .command w :: es → s.state = .busy →
    step s = .next t → decode w ≠ .ok .clear → t.inBuf = s.inBuf ∧ t.inLen = s.inLen ∧ t.k = s.k)

/-- R107: outside DONE, RDSYM and RDENC return NAK RANGE for every index. -/
def Obligations.PartialResultsAreUnreadable : Prop :=
  ∀ s : State, s.Inv → s.fault = none → s.state ≠ .done → s.symLen = 0 ∧ s.encLen = 0 ∧ ∀ x : Nat,
    exec (.rdsym x) s = .next { s with responses := s.responses ++ [0x80000000] } ∧
      exec (.rdenc x) s = .next { s with responses := s.responses ++ [0x80000000] }

/-- R108: while STATE = BUSY and FAULT = none, the Sequencer's turn always does exactly one of the chunk step, the error
and the commit, and K never exceeds NCH. -/
def Obligations.BusySequencerAlwaysMoves : Prop :=
  ∀ (s : State) (es : List Event), s.Inv → s.state = .busy → s.fault = none → s.events = .sequencer :: es →
    ∃ t, step s = .next t ∧ t.k ≤ cdiv t.inLen 4 ∧
      ((s.k < cdiv s.inLen 4 ∧ t.state = .busy ∧ t.k = s.k + 1) ∨
       (s.k < cdiv s.inLen 4 ∧ t.state = .error ∧ t.k = s.k) ∨
       (s.k = cdiv s.inLen 4 ∧ t.state = .done ∧ t.k = s.k))

/-- R105 with R104: after START, and with the Sequencer alone to step, a run whose encode succeeds stays BUSY for NCH
Sequencer steps and holds the EncodedOutput after NCH + 1; a run that fails at chunk q stays BUSY for q and reports the
Symbol after q + 1. The Sequencer alone steps because no event is to come (log entry 2). -/
def Obligations.RunComputesEncodeInTheStatedSteps : Prop :=
  ∀ s : State, s.fault = none → s.state ≠ .busy → s.InputWritten → s.events = [] →
    (∀ out, encodeBits s.params.codeTable s.inputBits = .ok out →
      (∀ n ≤ s.nch, ∃ u, Sys2Proof.core.run (1 + n) (s.withFetchWord 32 0x30000000) = .next u ∧ u.state = .busy) ∧
      ∃ t, Sys2Proof.core.run (1 + (s.nch + 1)) (s.withFetchWord 32 0x30000000) = .next t ∧ t.Holds out) ∧
    (∀ v, encodeBits s.params.codeTable s.inputBits = .error ⟨v⟩ →
      ∃ q < s.nch, (symbolsOf s.inputBits)[q]? = some v ∧
        (∀ n ≤ q, ∃ u, Sys2Proof.core.run (1 + n) (s.withFetchWord 32 0x30000000) = .next u ∧ u.state = .busy) ∧
        ∃ t, Sys2Proof.core.run (1 + (q + 1)) (s.withFetchWord 32 0x30000000) = .next t ∧ t.Reports v)

/-- From R104: in every interleaving with no CLEAR and no reset, whatever else the Host does, a run that START begins
reaches the state that encode gives, within as many steps as there are events to come and chunks to encode. That the
Sequencer alone steps once the events are used up is log entry 2; EveryFairExecutionComputesEncode does without it. -/
def Obligations.EveryInterleavingComputesEncode : Prop :=
  ∀ (s : State) (es : List Event), s.fault = none → s.state ≠ .busy → s.InputWritten →
    s.events = .command 0x30000000 :: es → (∀ e ∈ es, ¬e.EndsRun) →
    ∃ n t, n ≤ 1 + es.length + (s.nch + 1) ∧ Sys2Proof.core.run n s = .next t ∧
      match encodeBits s.params.codeTable s.inputBits with
      | .ok out => t.Holds out
      | .error e => t.Reports e.symbol

/-- R104, whatever comes later: let a run begin with START, and let `es` be any beginning of what follows it, Host words and
Sequencer turns in any order, with no CLEAR and no reset. Either the state that encode gives was reached by the end of
`es`, or the run is still BUSY, each Sequencer turn in `es` was a chunk step, and there were at most NCH of them. In a
weakly fair execution the second cannot last: while it does the Sequencer is enabled, so it takes a turn again (R102). -/
def Obligations.EveryFairExecutionComputesEncode : Prop :=
  ∀ (s : State) (es later : List Event), s.fault = none → s.state ≠ .busy → s.InputWritten →
    s.events = .command 0x30000000 :: (es ++ later) → (∀ e ∈ es, ¬e.EndsRun) →
    (∃ n t, n ≤ 1 + es.length ∧ Sys2Proof.core.run n s = .next t ∧
      match encodeBits s.params.codeTable s.inputBits with
      | .ok out => t.Holds out
      | .error e => t.Reports e.symbol) ∨
    (es.count .sequencer ≤ s.nch ∧ ∃ t, Sys2Proof.core.run (1 + es.length) s = .next t ∧ t.state = .busy ∧
      t.fault = none ∧ t.k = es.count .sequencer)

/-- R106: a run has ended iff STATE is DONE or ERROR, and never in BUSY nor in a faulted model; the result is read from that
state by RDSTAT, RDSYMLEN, RDENCLEN, RDSYM and RDENC. -/
def Obligations.EndedRunIsReadByTheCommands : Prop :=
  (∀ s : State, (s.fault = none → (s.RunEnded ↔ s.state = .done ∨ s.state = .error)) ∧
    (s.state = .busy ∨ s.fault ≠ none → ¬s.RunEnded)) ∧
  (∀ (s : State) (out : EncodedOutput), s.Inv → s.Holds out → s.RunEnded ∧
    (∃ r : Word, exec .rdstat s = .next { s with responses := s.responses ++ [r] } ∧ r.toNat = 2) ∧
    (∃ r : Word, exec .rdsymlen s = .next { s with responses := s.responses ++ [r] } ∧
      r.toNat = out.symbols.length) ∧
    (∃ r : Word, exec .rdenclen s = .next { s with responses := s.responses ++ [r] } ∧ r.toNat = out.bits.length) ∧
    (∀ (q : Nat) (v : Symbol), out.symbols[q]? = some v →
      ∃ r : Word, exec (.rdsym q) s = .next { s with responses := s.responses ++ [r] } ∧ r.toNat = v.toNat) ∧
    (∀ (j : Nat) (b : Bit), out.bits[j]? = some b →
      ∃ r : Word, exec (.rdenc j) s = .next { s with responses := s.responses ++ [r] } ∧ r.toNat = b.toNat)) ∧
  (∀ (s : State) (v : Symbol), s.Reports v → s.RunEnded ∧
    ∃ r : Word, exec .rdstat s = .next { s with responses := s.responses ++ [r] } ∧ r.toNat = 4 * v.toNat + 3)

/-! ## The datapath -/

/-- R64, R65, R66: the group count; the last group alone holds padding, at its right end, and padding is 0; all else is
input bits in order; an empty input has no group. -/
def Obligations.ChunkCountsAndPadding : Prop :=
  ∀ (size : Nat) [NeZero size] (bits : List Bit),
    (chunk bits size).length = cdiv bits.length size ∧ chunk ([] : List Bit) size = [] ∧
    ∀ (q t : Nat) (h : t < size) (g : Vector Bit size), (chunk bits size)[q]? = some g →
      (q * size + t < bits.length → some g[t] = bits[q * size + t]?) ∧
      (bits.length ≤ q * size + t → g[t] = 0) ∧
      (bits.length ≤ q * size + t ↔
        q + 1 = cdiv bits.length size ∧ size - (size - bits.length % size) % size ≤ t)

/-- R68: the hardware nibble is the Chunker's group. -/
def Obligations.HardwareNibbleIsTheChunk : Prop :=
  ∀ s : State, s.InputWritten →
    s.inputBits.length = s.inLen ∧ (∀ i < s.inLen, s.inputBits[i]? = s.inBuf.read i) ∧
    ∀ k < cdiv s.inLen 4, (chunk s.inputBits 4)[k]? = some (s.nibble k)

/-- R70: zeros that only pad the last group change no group, and no number of zeros changes a full group. -/
def Obligations.PaddingIsStable : Prop :=
  ∀ (bits : List Bit) (k : Nat),
    (k ≤ (4 - bits.length % 4) % 4 → chunk (bits ++ List.replicate k 0) 4 = chunk bits 4) ∧
    (chunk (bits ++ List.replicate k 0) 4).take (bits.length / 4) = (chunk bits 4).take (bits.length / 4)

/-- R71, R74: nibble_value weighs the bits 8, 4, 2, 1 in input order, and is a bijection with the stated inverse. -/
def Obligations.NibbleValueIsABijection : Prop :=
  (∀ n : Nibble, (nibbleValue n).toNat = 8 * n[0].toNat + 4 * n[1].toNat + 2 * n[2].toNat + n[3].toNat) ∧
  (∀ n : Nibble, nibbleOfSymbol (nibbleToSymbol n) = n) ∧ (∀ v : Symbol, nibbleToSymbol (nibbleOfSymbol v) = v)

/-- From R92: place writes the five cells of the chunk, in emission order, and no other. That it keeps the canonical form is
about the model's own representation of a buffer (log entry 1). -/
def Obligations.PlaceWritesOneCodeword : Prop :=
  ∀ (m : Memory 1) (k : Nat) (c : Codeword),
    (∀ t < 5, (place m k c).read (5 * k + t) = some (c.extractLsb' (4 - t) 1)) ∧
    (∀ j, j < 5 * k ∨ 5 * k + 5 ≤ j → (place m k c).read j = m.read j) ∧ (m.Wf → (place m k c).Wf)

/-- R93, R94, R95: the length, the position of each bit, and the order of the concatenated codewords. -/
def Obligations.OutputBitPositions : Prop :=
  (∀ codes : List Codeword, (concatCodewords codes).length = 5 * codes.length) ∧
  (∀ (codes : List Codeword) (j : Nat) (c : Codeword), codes[j / 5]? = some c →
    (concatCodewords codes)[j]? = some (c.extractLsb' (4 - j % 5) 1)) ∧
  (∀ a b : List Codeword, concatCodewords (a ++ b) = concatCodewords a ++ concatCodewords b)

/-- R85, R86: encode fails iff some derived Symbol is absent, and then reports the first of them in chunk order; else it
gives the Symbols and their codewords, each present in the table, concatenated. -/
def Obligations.EncodeReportsTheFirstAbsentSymbol : Prop :=
  ∀ (T : CodeTable) (bits : List Bit),
    (∀ v, encodeBits T bits = .error ⟨v⟩ ↔
      ∃ q : Nat, (symbolsOf bits)[q]? = some v ∧ T.entry v = none ∧
        ∀ p < q, ∀ u, (symbolsOf bits)[p]? = some u → T.entry u ≠ none) ∧
    (∀ out, encodeBits T bits = .ok out ↔
      ∃ codes, (symbolsOf bits).map T.entry = codes.map some ∧ out = ⟨symbolsOf bits, concatCodewords codes⟩)

/-- R87, R89: the length law, and the Symbol of each chunk. -/
def Obligations.EncodeLengthLaw : Prop :=
  ∀ (T : CodeTable) (bits : List Bit) (out : EncodedOutput), encodeBits T bits = .ok out →
    out.symbols.length = cdiv bits.length 4 ∧ out.bits.length = 5 * out.symbols.length ∧
      ∀ q : Nat, out.symbols[q]? = (chunk bits 4)[q]?.map nibbleValue

/-- R90: encoding in two parts, the first of whole nibbles. -/
def Obligations.EncodePrefixDecomposition : Prop :=
  ∀ (T : CodeTable) (B C : List Bit), B.length % 4 = 0 →
    (∀ out, encodeBits T (B ++ C) = .ok out ↔
      ∃ x y, encodeBits T B = .ok x ∧ encodeBits T C = .ok y ∧ out = ⟨x.symbols ++ y.symbols, x.bits ++ y.bits⟩) ∧
    (∀ v, encodeBits T B = .error ⟨v⟩ → encodeBits T (B ++ C) = .error ⟨v⟩)

/-- From R77, R78, R91: under an admitted table the encoded bits determine the Symbols. -/
def Obligations.EncodedBitsDetermineTheSymbols : Prop :=
  ∀ (T : CodeTable) (a b : List Bit) (x y : EncodedOutput), T.Admitted →
    encodeBits T a = .ok x → encodeBits T b = .ok y → x.bits = y.bits → x.symbols = y.symbols

/-- R79 with R84 and R129: under a fully populated table encode never fails, and no step of the machine enters ERROR. -/
def Obligations.FullTableNeverRaisesUnknownSymbol : Prop :=
  (∀ (T : CodeTable) (bits : List Bit), T.Full → ∃ out, encodeBits T bits = .ok out) ∧
  (∀ s t : State, s.params.codeTable.Full → step s = .next t → t.state = .error → s.state = .error)

/-! ## The whole machine -/

/-- From R34: what reset leaves, in the block built with whatever configuration, that of State.reset among them. That the
content of SYM_BUF and ENC_BUF, unspecified after reset, is held as cells none of which has been written is log entries 1
and 7; that State.reset has the configuration Config.params is log entry 4. -/
def Obligations.ResetLeavesTheStatedValues : Prop :=
  State.reset = State.resetWith Config.params ∧
  ∀ (p : Params) (s : State), s = State.resetWith p →
    s.state = .idle ∧ s.errSym = 0 ∧ s.inLen = 0 ∧ s.symLen = 0 ∧ s.encLen = 0 ∧ s.k = 0 ∧
      (∀ i, s.inBuf.read i = none) ∧ (∀ k, s.symBuf.read k = none) ∧ (∀ j, s.encBuf.read j = none) ∧
      s.params.codeTable = p.codeTable ∧ s.fault = none

/-- R143: the reset event, at any later time and in any STATE, a faulted model's too: every register at its reset value,
every IN_BUF cell unwritten, CODE_TABLE unchanged, FAULT not cleared (log entry 8). That the lists of responses and of events to come
are no part of the block is the model's choice (log entries 2 and 3). -/
def Obligations.ResetEventPutsBackTheResetValues : Prop :=
  ∀ (s : State) (es : List Event), s.events = .reset :: es →
    ∃ t, step s = .next t ∧ t.state = .idle ∧ t.errSym = 0 ∧ t.inLen = 0 ∧ t.symLen = 0 ∧ t.encLen = 0 ∧ t.k = 0 ∧
      (∀ i, t.inBuf.read i = none) ∧ t.params = s.params ∧ t.fault = s.fault ∧ t.events = es ∧
      t.responses = s.responses

/-- R83: no command, no Sequencer step and no reset writes CODE_TABLE; N_MAX is as constant. -/
def Obligations.ConfigurationIsImmutable : Prop :=
  ∀ s t : State, step s = .next t → t.params = s.params

/-- From R19: STATE is written only by START (to BUSY), CLEAR (to IDLE), the Sequencer (to DONE or ERROR, from BUSY) and
reset (to IDLE). -/
def Obligations.OnlyTheStatedEventsChangeState : Prop :=
  ∀ s t : State, step s = .next t → t.state ≠ s.state →
    (s.nextEvent.1 = .reset ∧ t.state = .idle) ∨
    (s.nextEvent.1 = .command 0x30000000 ∧ t.state = .busy) ∨
    (s.nextEvent.1 = .command 0x40000000 ∧ t.state = .idle) ∨
    (s.nextEvent.1 = .sequencer ∧ s.state = .busy ∧ (t.state = .done ∨ t.state = .error))

/-- From R21, R22, R23, R25: which event can change which buffer and IN_LEN. -/
def Obligations.OnlyTheStatedEventsWriteTheBuffers : Prop :=
  ∀ s t : State, step s = .next t →
    (t.inBuf ≠ s.inBuf →
      s.nextEvent.1 = .reset ∨ ∃ w a b, s.nextEvent.1 = .command w ∧ decode w = .ok (.load a b)) ∧
    (t.inLen ≠ s.inLen →
      s.nextEvent.1 = .reset ∨ ∃ w n, s.nextEvent.1 = .command w ∧ decode w = .ok (.setlen n)) ∧
    (t.symBuf ≠ s.symBuf ∨ t.encBuf ≠ s.encBuf →
      s.nextEvent.1 = .reset ∨ (s.nextEvent.1 = .sequencer ∧ s.state = .busy))

/-- From R135: FAULT is set by START on an input with an unwritten cell and by nothing else; after that neither agent takes
a step, and nothing clears FAULT. That this START changes nothing else and gives no response (R130), and that each later
step of an agent is the outcome fault, is log entry 5; that a reset does not clear FAULT is R143 with log entry 8. -/
def Obligations.ModelFaultIsFinal : Prop :=
  (∀ (s : State) (es : List Event), s.events = .command 0x30000000 :: es → s.fault = none → s.state ≠ .busy →
    (∃ i < s.inLen, s.inBuf.read i = none) →
    step s = .next { s with events := es, fault := some .unwrittenInput }) ∧
  (∀ (s : State) (f : Fault), s.fault = some f → s.nextEvent.1 ≠ .reset → step s = .fault f) ∧
  (∀ (s t : State) (f : Fault), s.fault = some f → step s = .next t → t.fault = some f) ∧
  (∀ (s t : State), s.fault = none → step s = .next t → t.fault ≠ none →
    s.nextEvent.1 = .command 0x30000000 ∧ s.state ≠ .busy ∧ (∃ i < s.inLen, s.inBuf.read i = none) ∧
      t.fault = some .unwrittenInput)

/-- R136: ERROR and its ERR_SYM persist until a START, a CLEAR or a reset; START and CLEAR put ERR_SYM at 0. -/
def Obligations.ErrorPersistsUntilStartClearOrReset : Prop :=
  (∀ s t : State, s.state = .error → step s = .next t → s.nextEvent.1 ≠ .reset →
    s.nextEvent.1 ≠ .command 0x30000000 → s.nextEvent.1 ≠ .command 0x40000000 →
    t.state = .error ∧ t.errSym = s.errSym) ∧
  (∀ s : State, s.state = .error → s.fault = none → s.InputWritten →
    ∃ t, exec .start s = .next t ∧ t.state = .busy ∧ t.errSym = 0) ∧
  (∀ s : State, s.state = .error → s.fault = none → ∃ t, exec .clear s = .next t ∧ t.state = .idle ∧ t.errSym = 0)

/-- The invariant holds right after reset, under every admitted configuration and whatever is to come. -/
def Obligations.InvariantHoldsAfterReset : Prop :=
  State.reset.Inv ∧
    ∀ (p : Params) (es : List Event), p.Admitted → State.Inv { State.resetWith p with events := es }

/-- Every step keeps the invariant: the canonical form and the bounds of the buffers, R33 (a) to (d), and what a run has
encoded so far. -/
def Obligations.EveryStepKeepsTheInvariant : Prop :=
  ∀ s t : State, s.Inv → step s = .next t → t.Inv

/-- From R33, with the ranges of R18: what holds in every state some execution reaches, from reset under an admitted
configuration, through any order of commands, Sequencer steps and resets. (R33 (b) names the IN_LEN of the run's START;
that SYM_LEN is its chunk count is RunComputesEncodeInTheStatedSteps with EncodeLengthLaw.) -/
def Obligations.ReachableStatesMeetTheSpecsInvariants : Prop :=
  ∀ (p : Params) (s : State), p.Admitted → State.Reachable p s →
    (s.state ≠ .done → s.symLen = 0 ∧ s.encLen = 0) ∧ (s.state = .done → s.encLen = 5 * s.symLen) ∧
    (s.state = .busy → s.k ≤ cdiv s.inLen 4 ∧ cdiv s.inLen 4 ≤ cdiv p.nMax 4) ∧
    (s.state = .idle ∨ s.state = .done → s.errSym = 0) ∧ s.params = p ∧
    s.inLen ≤ p.nMax ∧ s.symLen ≤ cdiv p.nMax 4 ∧ s.encLen ≤ 5 * cdiv p.nMax 4 ∧ s.k ≤ cdiv p.nMax 4

/-- The machine can run: in every state without a model fault, the word of each command, issued as the very next event,
answers a next state (R109: the block never refuses to accept a word). (Issuing a word is log entry 2; what START answers
where it meets the model fault is log entry 5.) -/
def Obligations.EveryCommandCanBeIssued : Prop :=
  ∀ (s : State) (i : Instr), s.fault = none → i.WellFormed → ∃ t, step (s.issue (encode i)) = .next t
end

