-- ==== Sys2Proof/Laws/Config.lean ====
section
/-! SUPPORT. The configuration is an admitted one whatever the opaque constants are, and every admitted CodeTable is a
possible one. -/

namespace Sys2Proof

theorem CodeTable.entry_withoutRepeats (t : CodeTable) (v : Symbol) :
    t.withoutRepeats.entry v = if ∃ w : Symbol, w < v ∧ t.entry w = t.entry v then none else t.entry v := by
  have key : (∃ w : Fin 16, w < v.toFin ∧ t[w] = t[v.toFin]) ↔ ∃ w : Symbol, w < v ∧ t.entry w = t.entry v :=
    ⟨fun ⟨w, h, e⟩ => ⟨⟨w⟩, h, e⟩, fun ⟨w, h, e⟩ => ⟨w.toFin, h, e⟩⟩
  unfold CodeTable.withoutRepeats
  simp only [CodeTable.entry, Vector.getElem_ofFn]
  exact if_congr key rfl rfl

theorem CodeTable.withoutRepeats_admitted (t : CodeTable) : t.withoutRepeats.Admitted := by
  intro v w hvw hv he
  rw [CodeTable.entry_withoutRepeats] at hv
  rw [CodeTable.entry_withoutRepeats, CodeTable.entry_withoutRepeats] at he
  split at hv
  · exact hv rfl
  · next h1 =>
    rw [if_neg h1] at he
    split at he
    · exact hv he
    · next h2 =>
      have hne : v.toNat ≠ w.toNat := fun h => hvw (BitVec.eq_of_toNat_eq h)
      rcases Nat.lt_or_gt_of_ne hne with h | h
      · exact h2 ⟨v, h, he⟩
      · exact h1 ⟨w, h, he.symm⟩

theorem CodeTable.withoutRepeats_of_admitted (t : CodeTable) (h : t.Admitted) (v : Symbol) :
    t.withoutRepeats.entry v = t.entry v := by
  rw [CodeTable.entry_withoutRepeats]
  split
  · next hw =>
    obtain ⟨w, hwv, he⟩ := hw
    by_contra hne
    exact h v w (fun e => absurd (e ▸ hwv : v < v) (BitVec.lt_irrefl v)) (fun h0 => hne h0.symm) he.symm
  · rfl

theorem Config.params_admitted : Config.params.Admitted :=
  ⟨by simp [Config.params], by simp only [Config.params]; omega, CodeTable.withoutRepeats_admitted _⟩

theorem configure_eq_some (n : Nat) (t : CodeTable) (p : Params) :
    configure n t = some p ↔ p = ⟨n, t⟩ ∧ p.Admitted := by
  unfold configure
  split
  · next h => exact ⟨fun e => by cases e; exact ⟨rfl, h⟩, fun e => by rw [e.1]⟩
  · next h => exact ⟨fun e => (by cases e), fun e => absurd (e.1 ▸ e.2) h⟩

end Sys2Proof
end

