-- ==== Sys2Proof/Laws/Decode.lean ====
section
/-! SUPPORT. A word and its four fields determine each other (R50). -/

namespace Sys2Proof

@[simp] theorem Fields.ofWord_word (f : Fields) : Fields.ofWord f.word = f := by
  obtain ⟨opc, rsv, d, arg⟩ := f
  simp only [Fields.ofWord, Fields.word, Fields.mk.injEq]
  refine ⟨?_, ?_, ?_, ?_⟩ <;> ext i hi <;>
    simp only [BitVec.getElem_extractLsb', BitVec.getLsbD_append] <;> grind

@[simp] theorem Fields.word_ofWord (w : Word) : (Fields.ofWord w).word = w := by
  simp only [Fields.ofWord, Fields.word]
  ext i hi
  simp only [BitVec.getElem_append, BitVec.getElem_extractLsb']
  grind

theorem Fields.ofWord_injective {w w' : Word} (h : Fields.ofWord w = Fields.ofWord w') : w = w' := by
  rw [← Fields.word_ofWord w, h, Fields.word_ofWord]

@[simp] theorem Fields.ofWord_encode (i : Instr) : Fields.ofWord (encode i) = i.fields := Fields.ofWord_word _

theorem decode_encode_eq (i : Instr) : decode (encode i) = i.fields.decode := by
  rw [decode, Fields.ofWord_encode]

/-- The value of a word from its fields. -/
theorem Fields.word_toNat (f : Fields) :
    f.word.toNat = f.opc.toNat * 2 ^ 28 + f.rsv.toNat * 2 ^ 25 + f.d.toNat * 2 ^ 24 + f.arg.toNat := by
  obtain ⟨opc, rsv, d, arg⟩ := f
  simp only [Fields.word]
  rw [BitVec.toNat_append, BitVec.toNat_append, BitVec.toNat_append]
  rw [← Nat.shiftLeft_add_eq_or_of_lt arg.isLt, ← Nat.shiftLeft_add_eq_or_of_lt d.isLt,
    ← Nat.shiftLeft_add_eq_or_of_lt rsv.isLt]
  simp only [Nat.shiftLeft_eq]
  ring

end Sys2Proof
end

