-- ==== Sys2Proof/Laws/Flags.lean ====
section
/-! SUPPORT. The two fields of a response word, and its value (R55, R56). -/

namespace Sys2Proof.Machine

@[simp] theorem responseWord_rc (rc : ResponseCode) (data : BitVec 30) :
    (responseWord rc data).extractLsb' 30 2 = rc.code := by
  simp only [responseWord]
  ext i hi
  simp only [BitVec.getElem_extractLsb', BitVec.getLsbD_append]
  grind

@[simp] theorem responseWord_data (rc : ResponseCode) (data : BitVec 30) :
    (responseWord rc data).extractLsb' 0 30 = data := by
  simp only [responseWord]
  ext i hi
  simp only [BitVec.getElem_extractLsb', BitVec.getLsbD_append]
  grind

theorem responseWord_toNat (rc : ResponseCode) (data : BitVec 30) :
    (responseWord rc data).toNat = rc.code.toNat * 2 ^ 30 + data.toNat := by
  rw [responseWord, BitVec.toNat_append, ← Nat.shiftLeft_add_eq_or_of_lt data.isLt, Nat.shiftLeft_eq]

/-- The value of an OK response is its DATA. -/
@[simp] theorem responseWord_ok_toNat (data : BitVec 30) : (responseWord .ok data).toNat = data.toNat := by
  simp [responseWord_toNat, ResponseCode.code]

end Sys2Proof.Machine
end

