-- ==== Sys2Proof/Laws/Memory.lean ====
section
/-! SUPPORT. The laws of a buffer: what a read gives after a write, and that every write keeps the canonical form. -/

namespace Sys2Proof.Machine

variable {w : Nat} (m : Memory w) (a b : Nat) (v : BitVec w)

@[simp] theorem Memory.read_nil : Memory.read ([] : Memory w) a = none := rfl

theorem Memory.read_write : (m.write a v).read b = if b = a then some v else m.read b := by
  induction m with
  | nil => simp [Memory.write, Memory.read]
  | cons x m ih =>
    obtain ⟨c, u⟩ := x
    simp only [Memory.write]
    split
    · simp [Memory.read]
    · split
      · simp only [Memory.read]
        split <;> simp_all
      · simp only [Memory.read, ih]
        split <;> simp_all
        omega

@[simp] theorem Memory.read_write_same : (m.write a v).read a = some v := by simp [Memory.read_write]

theorem Memory.read_write_ne (h : b ≠ a) : (m.write a v).read b = m.read b := by simp [Memory.read_write, h]

theorem Memory.mem_write {x : Nat × BitVec w} (h : x ∈ m.write a v) : x = (a, v) ∨ x ∈ m := by
  induction m with
  | nil => simpa [Memory.write] using h
  | cons y m ih =>
    obtain ⟨c, u⟩ := y
    simp only [Memory.write] at h
    split at h
    · simpa using h
    · split at h
      · rcases List.mem_cons.mp h with h | h
        · exact .inl h
        · exact .inr (List.mem_cons_of_mem _ h)
      · rcases List.mem_cons.mp h with h | h
        · exact .inr (h ▸ List.mem_cons_self)
        · exact (ih h).imp id (List.mem_cons_of_mem _)

theorem Memory.write_wf (h : m.Wf) : (m.write a v).Wf := by
  induction m with
  | nil => simp [Memory.write, Memory.Wf]
  | cons y m ih =>
    obtain ⟨c, u⟩ := y
    obtain ⟨hy, hm⟩ := List.pairwise_cons.mp h
    simp only [Memory.write]
    split
    · next hac =>
      refine List.pairwise_cons.mpr ⟨fun x hx => ?_, h⟩
      rcases List.mem_cons.mp hx with rfl | hx
      · exact hac
      · exact Nat.lt_trans hac (hy x hx)
    · split
      · next hac => exact List.pairwise_cons.mpr ⟨fun x hx => hac ▸ hy x hx, hm⟩
      · next h1 h2 =>
        refine List.pairwise_cons.mpr ⟨fun x hx => ?_, ih hm⟩
        rcases Memory.mem_write m a v hx with rfl | hx
        · simp only
          omega
        · exact hy x hx

@[simp] theorem Memory.nil_wf : Memory.Wf ([] : Memory w) := List.Pairwise.nil

theorem Memory.writeSeq_wf (vs : List (BitVec w)) (h : m.Wf) : (m.writeSeq a vs).Wf := by
  induction vs generalizing m a with
  | nil => exact h
  | cons u vs ih => exact ih _ _ (m.write_wf a u h)

/-- After writes to consecutive cells, a cell among them holds its value and every other is as before. -/
theorem Memory.read_writeSeq (vs : List (BitVec w)) :
    (m.writeSeq a vs).read b = if a ≤ b ∧ b < a + vs.length then vs[b - a]? else m.read b := by
  induction vs generalizing m a with
  | nil => simp [Memory.writeSeq]
  | cons u vs ih =>
    simp only [Memory.writeSeq, ih, Memory.read_write, List.length_cons]
    by_cases h1 : b = a
    · subst h1
      simp
    · by_cases h2 : a + 1 ≤ b ∧ b < a + 1 + vs.length
      · have h3 : a ≤ b ∧ b < a + (vs.length + 1) := by omega
        have h4 : b - a = (b - (a + 1)) + 1 := by omega
        rw [if_pos h2, if_pos h3, h4, List.getElem?_cons_succ]
      · have h3 : ¬(a ≤ b ∧ b < a + (vs.length + 1)) := by omega
        rw [if_neg h2, if_neg h3, if_neg h1]

@[simp] theorem cwbits_length (c : Codeword) : (cwbits c).length = 5 := rfl

theorem place_wf (m : Memory 1) (k : Nat) (c : Codeword) (h : m.Wf) : (place m k c).Wf :=
  m.writeSeq_wf _ _ h

/-- `place(k, c)` writes the five cells from 5k on and no other (R92). -/
theorem place_read (m : Memory 1) (k : Nat) (c : Codeword) (j : Nat) :
    (place m k c).read j = if 5 * k ≤ j ∧ j < 5 * k + 5 then (cwbits c)[j - 5 * k]? else m.read j :=
  m.read_writeSeq _ _ _

end Sys2Proof.Machine
end

