-- ==== Sys2Proof/Laws/State.lean ====
section
/-! SUPPORT. One lemma per field per update of the state, so that no later proof unfolds a record update. -/

namespace Sys2Proof.Machine

@[simp] theorem State.respond_state (s : State) (rc : ResponseCode) (data : BitVec 30) : (s.respond rc data).state = s.state := rfl
@[simp] theorem State.respond_errSym (s : State) (rc : ResponseCode) (data : BitVec 30) : (s.respond rc data).errSym = s.errSym := rfl
@[simp] theorem State.respond_inBuf (s : State) (rc : ResponseCode) (data : BitVec 30) : (s.respond rc data).inBuf = s.inBuf := rfl
@[simp] theorem State.respond_inLen (s : State) (rc : ResponseCode) (data : BitVec 30) : (s.respond rc data).inLen = s.inLen := rfl
@[simp] theorem State.respond_symBuf (s : State) (rc : ResponseCode) (data : BitVec 30) : (s.respond rc data).symBuf = s.symBuf := rfl
@[simp] theorem State.respond_symLen (s : State) (rc : ResponseCode) (data : BitVec 30) : (s.respond rc data).symLen = s.symLen := rfl
@[simp] theorem State.respond_encBuf (s : State) (rc : ResponseCode) (data : BitVec 30) : (s.respond rc data).encBuf = s.encBuf := rfl
@[simp] theorem State.respond_encLen (s : State) (rc : ResponseCode) (data : BitVec 30) : (s.respond rc data).encLen = s.encLen := rfl
@[simp] theorem State.respond_k (s : State) (rc : ResponseCode) (data : BitVec 30) : (s.respond rc data).k = s.k := rfl
@[simp] theorem State.respond_params (s : State) (rc : ResponseCode) (data : BitVec 30) : (s.respond rc data).params = s.params := rfl
@[simp] theorem State.respond_fault (s : State) (rc : ResponseCode) (data : BitVec 30) : (s.respond rc data).fault = s.fault := rfl
@[simp] theorem State.respond_events (s : State) (rc : ResponseCode) (data : BitVec 30) : (s.respond rc data).events = s.events := rfl
@[simp] theorem State.respond_responses (s : State) (rc : ResponseCode) (data : BitVec 30) : (s.respond rc data).responses = s.responses ++ [responseWord rc data] := rfl

@[simp] theorem State.nak_state (s : State) (rc : ResponseCode) : (s.nak rc).state = s.state := rfl
@[simp] theorem State.nak_errSym (s : State) (rc : ResponseCode) : (s.nak rc).errSym = s.errSym := rfl
@[simp] theorem State.nak_inBuf (s : State) (rc : ResponseCode) : (s.nak rc).inBuf = s.inBuf := rfl
@[simp] theorem State.nak_inLen (s : State) (rc : ResponseCode) : (s.nak rc).inLen = s.inLen := rfl
@[simp] theorem State.nak_symBuf (s : State) (rc : ResponseCode) : (s.nak rc).symBuf = s.symBuf := rfl
@[simp] theorem State.nak_symLen (s : State) (rc : ResponseCode) : (s.nak rc).symLen = s.symLen := rfl
@[simp] theorem State.nak_encBuf (s : State) (rc : ResponseCode) : (s.nak rc).encBuf = s.encBuf := rfl
@[simp] theorem State.nak_encLen (s : State) (rc : ResponseCode) : (s.nak rc).encLen = s.encLen := rfl
@[simp] theorem State.nak_k (s : State) (rc : ResponseCode) : (s.nak rc).k = s.k := rfl
@[simp] theorem State.nak_params (s : State) (rc : ResponseCode) : (s.nak rc).params = s.params := rfl
@[simp] theorem State.nak_fault (s : State) (rc : ResponseCode) : (s.nak rc).fault = s.fault := rfl
@[simp] theorem State.nak_events (s : State) (rc : ResponseCode) : (s.nak rc).events = s.events := rfl
@[simp] theorem State.nak_responses (s : State) (rc : ResponseCode) : (s.nak rc).responses = s.responses ++ [responseWord rc 0] := rfl

@[simp] theorem State.discardRun_state (s : State) (st : RunState) : (s.discardRun st).state = st := rfl
@[simp] theorem State.discardRun_errSym (s : State) (st : RunState) : (s.discardRun st).errSym = 0 := rfl
@[simp] theorem State.discardRun_inBuf (s : State) (st : RunState) : (s.discardRun st).inBuf = s.inBuf := rfl
@[simp] theorem State.discardRun_inLen (s : State) (st : RunState) : (s.discardRun st).inLen = s.inLen := rfl
@[simp] theorem State.discardRun_symBuf (s : State) (st : RunState) : (s.discardRun st).symBuf = s.symBuf := rfl
@[simp] theorem State.discardRun_symLen (s : State) (st : RunState) : (s.discardRun st).symLen = 0 := rfl
@[simp] theorem State.discardRun_encBuf (s : State) (st : RunState) : (s.discardRun st).encBuf = s.encBuf := rfl
@[simp] theorem State.discardRun_encLen (s : State) (st : RunState) : (s.discardRun st).encLen = 0 := rfl
@[simp] theorem State.discardRun_k (s : State) (st : RunState) : (s.discardRun st).k = 0 := rfl
@[simp] theorem State.discardRun_params (s : State) (st : RunState) : (s.discardRun st).params = s.params := rfl
@[simp] theorem State.discardRun_fault (s : State) (st : RunState) : (s.discardRun st).fault = s.fault := rfl
@[simp] theorem State.discardRun_events (s : State) (st : RunState) : (s.discardRun st).events = s.events := rfl
@[simp] theorem State.discardRun_responses (s : State) (st : RunState) : (s.discardRun st).responses = s.responses := rfl

@[simp] theorem State.raiseUnknownSymbol_state (s : State) (v : Symbol) : (s.raiseUnknownSymbol v).state = .error := rfl
@[simp] theorem State.raiseUnknownSymbol_errSym (s : State) (v : Symbol) : (s.raiseUnknownSymbol v).errSym = v := rfl
@[simp] theorem State.raiseUnknownSymbol_inBuf (s : State) (v : Symbol) : (s.raiseUnknownSymbol v).inBuf = s.inBuf := rfl
@[simp] theorem State.raiseUnknownSymbol_inLen (s : State) (v : Symbol) : (s.raiseUnknownSymbol v).inLen = s.inLen := rfl
@[simp] theorem State.raiseUnknownSymbol_symBuf (s : State) (v : Symbol) : (s.raiseUnknownSymbol v).symBuf = s.symBuf := rfl
@[simp] theorem State.raiseUnknownSymbol_symLen (s : State) (v : Symbol) : (s.raiseUnknownSymbol v).symLen = s.symLen := rfl
@[simp] theorem State.raiseUnknownSymbol_encBuf (s : State) (v : Symbol) : (s.raiseUnknownSymbol v).encBuf = s.encBuf := rfl
@[simp] theorem State.raiseUnknownSymbol_encLen (s : State) (v : Symbol) : (s.raiseUnknownSymbol v).encLen = s.encLen := rfl
@[simp] theorem State.raiseUnknownSymbol_k (s : State) (v : Symbol) : (s.raiseUnknownSymbol v).k = s.k := rfl
@[simp] theorem State.raiseUnknownSymbol_params (s : State) (v : Symbol) : (s.raiseUnknownSymbol v).params = s.params := rfl
@[simp] theorem State.raiseUnknownSymbol_fault (s : State) (v : Symbol) : (s.raiseUnknownSymbol v).fault = s.fault := rfl
@[simp] theorem State.raiseUnknownSymbol_events (s : State) (v : Symbol) : (s.raiseUnknownSymbol v).events = s.events := rfl
@[simp] theorem State.raiseUnknownSymbol_responses (s : State) (v : Symbol) : (s.raiseUnknownSymbol v).responses = s.responses := rfl

@[simp] theorem State.commit_state (s : State) (n : Nat) : (s.commit n).state = .done := rfl
@[simp] theorem State.commit_errSym (s : State) (n : Nat) : (s.commit n).errSym = s.errSym := rfl
@[simp] theorem State.commit_inBuf (s : State) (n : Nat) : (s.commit n).inBuf = s.inBuf := rfl
@[simp] theorem State.commit_inLen (s : State) (n : Nat) : (s.commit n).inLen = s.inLen := rfl
@[simp] theorem State.commit_symBuf (s : State) (n : Nat) : (s.commit n).symBuf = s.symBuf := rfl
@[simp] theorem State.commit_symLen (s : State) (n : Nat) : (s.commit n).symLen = n := rfl
@[simp] theorem State.commit_encBuf (s : State) (n : Nat) : (s.commit n).encBuf = s.encBuf := rfl
@[simp] theorem State.commit_encLen (s : State) (n : Nat) : (s.commit n).encLen = 5 * n := rfl
@[simp] theorem State.commit_k (s : State) (n : Nat) : (s.commit n).k = s.k := rfl
@[simp] theorem State.commit_params (s : State) (n : Nat) : (s.commit n).params = s.params := rfl
@[simp] theorem State.commit_fault (s : State) (n : Nat) : (s.commit n).fault = s.fault := rfl
@[simp] theorem State.commit_events (s : State) (n : Nat) : (s.commit n).events = s.events := rfl
@[simp] theorem State.commit_responses (s : State) (n : Nat) : (s.commit n).responses = s.responses := rfl

@[simp] theorem State.modelFault_state (s : State) (f : Fault) : (s.modelFault f).state = s.state := rfl
@[simp] theorem State.modelFault_errSym (s : State) (f : Fault) : (s.modelFault f).errSym = s.errSym := rfl
@[simp] theorem State.modelFault_inBuf (s : State) (f : Fault) : (s.modelFault f).inBuf = s.inBuf := rfl
@[simp] theorem State.modelFault_inLen (s : State) (f : Fault) : (s.modelFault f).inLen = s.inLen := rfl
@[simp] theorem State.modelFault_symBuf (s : State) (f : Fault) : (s.modelFault f).symBuf = s.symBuf := rfl
@[simp] theorem State.modelFault_symLen (s : State) (f : Fault) : (s.modelFault f).symLen = s.symLen := rfl
@[simp] theorem State.modelFault_encBuf (s : State) (f : Fault) : (s.modelFault f).encBuf = s.encBuf := rfl
@[simp] theorem State.modelFault_encLen (s : State) (f : Fault) : (s.modelFault f).encLen = s.encLen := rfl
@[simp] theorem State.modelFault_k (s : State) (f : Fault) : (s.modelFault f).k = s.k := rfl
@[simp] theorem State.modelFault_params (s : State) (f : Fault) : (s.modelFault f).params = s.params := rfl
@[simp] theorem State.modelFault_fault (s : State) (f : Fault) : (s.modelFault f).fault = some f := rfl
@[simp] theorem State.modelFault_events (s : State) (f : Fault) : (s.modelFault f).events = s.events := rfl
@[simp] theorem State.modelFault_responses (s : State) (f : Fault) : (s.modelFault f).responses = s.responses := rfl

@[simp] theorem State.resetBlock_state (s : State) : (s.resetBlock).state = .idle := rfl
@[simp] theorem State.resetBlock_errSym (s : State) : (s.resetBlock).errSym = 0 := rfl
@[simp] theorem State.resetBlock_inBuf (s : State) : (s.resetBlock).inBuf = [] := rfl
@[simp] theorem State.resetBlock_inLen (s : State) : (s.resetBlock).inLen = 0 := rfl
@[simp] theorem State.resetBlock_symBuf (s : State) : (s.resetBlock).symBuf = [] := rfl
@[simp] theorem State.resetBlock_symLen (s : State) : (s.resetBlock).symLen = 0 := rfl
@[simp] theorem State.resetBlock_encBuf (s : State) : (s.resetBlock).encBuf = [] := rfl
@[simp] theorem State.resetBlock_encLen (s : State) : (s.resetBlock).encLen = 0 := rfl
@[simp] theorem State.resetBlock_k (s : State) : (s.resetBlock).k = 0 := rfl
@[simp] theorem State.resetBlock_params (s : State) : (s.resetBlock).params = s.params := rfl
@[simp] theorem State.resetBlock_fault (s : State) : (s.resetBlock).fault = s.fault := rfl
@[simp] theorem State.resetBlock_events (s : State) : (s.resetBlock).events = s.events := rfl
@[simp] theorem State.resetBlock_responses (s : State) : (s.resetBlock).responses = s.responses := rfl

@[simp] theorem State.encodeChunk_state (s : State) (v : Symbol) (c : Codeword) : (s.encodeChunk v c).state = s.state := rfl
@[simp] theorem State.encodeChunk_errSym (s : State) (v : Symbol) (c : Codeword) : (s.encodeChunk v c).errSym = s.errSym := rfl
@[simp] theorem State.encodeChunk_inBuf (s : State) (v : Symbol) (c : Codeword) : (s.encodeChunk v c).inBuf = s.inBuf := rfl
@[simp] theorem State.encodeChunk_inLen (s : State) (v : Symbol) (c : Codeword) : (s.encodeChunk v c).inLen = s.inLen := rfl
@[simp] theorem State.encodeChunk_symBuf (s : State) (v : Symbol) (c : Codeword) : (s.encodeChunk v c).symBuf = s.symBuf.write s.k v := rfl
@[simp] theorem State.encodeChunk_symLen (s : State) (v : Symbol) (c : Codeword) : (s.encodeChunk v c).symLen = s.symLen := rfl
@[simp] theorem State.encodeChunk_encBuf (s : State) (v : Symbol) (c : Codeword) : (s.encodeChunk v c).encBuf = place s.encBuf s.k c := rfl
@[simp] theorem State.encodeChunk_encLen (s : State) (v : Symbol) (c : Codeword) : (s.encodeChunk v c).encLen = s.encLen := rfl
@[simp] theorem State.encodeChunk_k (s : State) (v : Symbol) (c : Codeword) : (s.encodeChunk v c).k = s.k + 1 := rfl
@[simp] theorem State.encodeChunk_params (s : State) (v : Symbol) (c : Codeword) : (s.encodeChunk v c).params = s.params := rfl
@[simp] theorem State.encodeChunk_fault (s : State) (v : Symbol) (c : Codeword) : (s.encodeChunk v c).fault = s.fault := rfl
@[simp] theorem State.encodeChunk_events (s : State) (v : Symbol) (c : Codeword) : (s.encodeChunk v c).events = s.events := rfl
@[simp] theorem State.encodeChunk_responses (s : State) (v : Symbol) (c : Codeword) : (s.encodeChunk v c).responses = s.responses := rfl

@[simp] theorem State.issue_state (s : State) (w : Word) : (s.issue w).state = s.state := rfl
@[simp] theorem State.issue_errSym (s : State) (w : Word) : (s.issue w).errSym = s.errSym := rfl
@[simp] theorem State.issue_inBuf (s : State) (w : Word) : (s.issue w).inBuf = s.inBuf := rfl
@[simp] theorem State.issue_inLen (s : State) (w : Word) : (s.issue w).inLen = s.inLen := rfl
@[simp] theorem State.issue_symBuf (s : State) (w : Word) : (s.issue w).symBuf = s.symBuf := rfl
@[simp] theorem State.issue_symLen (s : State) (w : Word) : (s.issue w).symLen = s.symLen := rfl
@[simp] theorem State.issue_encBuf (s : State) (w : Word) : (s.issue w).encBuf = s.encBuf := rfl
@[simp] theorem State.issue_encLen (s : State) (w : Word) : (s.issue w).encLen = s.encLen := rfl
@[simp] theorem State.issue_k (s : State) (w : Word) : (s.issue w).k = s.k := rfl
@[simp] theorem State.issue_params (s : State) (w : Word) : (s.issue w).params = s.params := rfl
@[simp] theorem State.issue_fault (s : State) (w : Word) : (s.issue w).fault = s.fault := rfl
@[simp] theorem State.issue_events (s : State) (w : Word) : (s.issue w).events = .command w :: s.events := rfl
@[simp] theorem State.issue_responses (s : State) (w : Word) : (s.issue w).responses = s.responses := rfl

@[simp] theorem State.resetWith_state (p : Params) : (State.resetWith p).state = .idle := rfl
@[simp] theorem State.resetWith_errSym (p : Params) : (State.resetWith p).errSym = 0 := rfl
@[simp] theorem State.resetWith_inBuf (p : Params) : (State.resetWith p).inBuf = [] := rfl
@[simp] theorem State.resetWith_inLen (p : Params) : (State.resetWith p).inLen = 0 := rfl
@[simp] theorem State.resetWith_symBuf (p : Params) : (State.resetWith p).symBuf = [] := rfl
@[simp] theorem State.resetWith_symLen (p : Params) : (State.resetWith p).symLen = 0 := rfl
@[simp] theorem State.resetWith_encBuf (p : Params) : (State.resetWith p).encBuf = [] := rfl
@[simp] theorem State.resetWith_encLen (p : Params) : (State.resetWith p).encLen = 0 := rfl
@[simp] theorem State.resetWith_k (p : Params) : (State.resetWith p).k = 0 := rfl
@[simp] theorem State.resetWith_params (p : Params) : (State.resetWith p).params = p := rfl
@[simp] theorem State.resetWith_fault (p : Params) : (State.resetWith p).fault = none := rfl
@[simp] theorem State.resetWith_events (p : Params) : (State.resetWith p).events = [] := rfl
@[simp] theorem State.resetWith_responses (p : Params) : (State.resetWith p).responses = [] := rfl

end Sys2Proof.Machine
end

