-- ==== Sys2Proof/Laws/Ops.lean ====
section
/-! SUPPORT. What each shared operation can do, and, once, what a command, a Sequencer step and a step can do. -/

namespace Sys2Proof.Machine

variable {s t s' : State}

theorem State.perform_of_running (h : s.fault = none) : s.perform s' = .next s' := by simp [State.perform, h]

theorem State.perform_of_faulted {f : Fault} (h : s.fault = some f) : s.perform s' = .fault f := by
  simp [State.perform, h]

theorem State.perform_eq_next : s.perform s' = .next t ↔ s.fault = none ∧ s' = t := by
  cases h : s.fault <;> simp [State.perform, h]

/-- What the third check lets through. -/
theorem State.inRange_cases (ok : Prop) [Decidable ok] :
    (ok ∧ s.inRange ok s' = s') ∨ (¬ok ∧ s.inRange ok s' = s.nak .nakRange) := by
  by_cases h : ok <;> simp [State.inRange, h]

/-- What the second check lets through. -/
theorem State.unlessBusy_cases :
    (s.state = .busy ∧ s.unlessBusy s' = s.nak .nakBusy) ∨ (s.state ≠ .busy ∧ s.unlessBusy s' = s') := by
  by_cases h : s.state = .busy <;> simp [State.unlessBusy, h]

/-- Everything a performed command can do: it only gives a response, or it is LOAD, SETLEN, START or CLEAR with that
command's effect. -/
theorem exec_cases {i : Instr} (h : exec i s = .next t) :
    s.fault = none ∧
      ((∃ rc data, t = s.respond rc data) ∨
       (∃ a b, i = .load a b ∧ s.state ≠ .busy ∧ a < s.params.nMax ∧
          t = { s with inBuf := s.inBuf.write a b }.respond .ok 0) ∨
       (∃ n, i = .setlen n ∧ s.state ≠ .busy ∧ n ≤ s.params.nMax ∧ t = { s with inLen := n }.respond .ok 0) ∨
       (i = .start ∧ s.state ≠ .busy ∧ s.InputWritten ∧ t = (s.discardRun .busy).respond .ok 0) ∨
       (i = .start ∧ s.state ≠ .busy ∧ ¬s.InputWritten ∧ t = s.modelFault .unwrittenInput) ∨
       (i = .clear ∧ t = (s.discardRun .idle).respond .ok 0)) := by
  cases i with
  | load a b =>
    obtain ⟨hf, rfl⟩ := State.perform_eq_next.mp h
    refine ⟨hf, ?_⟩
    rcases s.unlessBusy_cases (s' := s.inRange (s.inIndex a) ({ s with inBuf := s.inBuf.write a b }.respond .ok 0))
      with ⟨_, e⟩ | ⟨hb, e⟩ <;> rw [e]
    · exact .inl ⟨_, _, rfl⟩
    · rcases s.inRange_cases (s' := { s with inBuf := s.inBuf.write a b }.respond .ok 0) (s.inIndex a)
        with ⟨hr, e⟩ | ⟨_, e⟩ <;> rw [e]
      · exact .inr (.inl ⟨_, _, rfl, hb, hr, rfl⟩)
      · exact .inl ⟨_, _, rfl⟩
  | setlen n =>
    obtain ⟨hf, rfl⟩ := State.perform_eq_next.mp h
    refine ⟨hf, ?_⟩
    rcases s.unlessBusy_cases (s' := s.inRange (s.lengthInRange n) ({ s with inLen := n }.respond .ok 0))
      with ⟨_, e⟩ | ⟨hb, e⟩ <;> rw [e]
    · exact .inl ⟨_, _, rfl⟩
    · rcases s.inRange_cases (s' := { s with inLen := n }.respond .ok 0) (s.lengthInRange n)
        with ⟨hr, e⟩ | ⟨_, e⟩ <;> rw [e]
      · exact .inr (.inr (.inl ⟨_, rfl, hb, hr, rfl⟩))
      · exact .inl ⟨_, _, rfl⟩
  | start =>
    obtain ⟨hf, rfl⟩ := State.perform_eq_next.mp h
    refine ⟨hf, ?_⟩
    by_cases hw : s.InputWritten
    · rw [if_pos hw]
      rcases s.unlessBusy_cases (s' := (s.discardRun .busy).respond .ok 0) with ⟨_, e⟩ | ⟨hb, e⟩ <;> rw [e]
      · exact .inl ⟨_, _, rfl⟩
      · exact .inr (.inr (.inr (.inl ⟨rfl, hb, hw, rfl⟩)))
    · rw [if_neg hw]
      rcases s.unlessBusy_cases (s' := s.modelFault .unwrittenInput) with ⟨_, e⟩ | ⟨hb, e⟩ <;> rw [e]
      · exact .inl ⟨_, _, rfl⟩
      · exact .inr (.inr (.inr (.inr (.inl ⟨rfl, hb, hw, rfl⟩))))
  | clear =>
    obtain ⟨hf, rfl⟩ := State.perform_eq_next.mp h
    exact ⟨hf, .inr (.inr (.inr (.inr (.inr ⟨rfl, rfl⟩))))⟩
  | rdstat =>
    obtain ⟨hf, rfl⟩ := State.perform_eq_next.mp h
    exact ⟨hf, .inl ⟨_, _, rfl⟩⟩
  | rdsym k =>
    obtain ⟨hf, rfl⟩ := State.perform_eq_next.mp h
    refine ⟨hf, .inl ?_⟩
    rcases s.inRange_cases (s' := s.respond .ok ((s.symCell k).setWidth 30)) (s.symIndex k)
      with ⟨_, e⟩ | ⟨_, e⟩ <;> rw [e] <;> exact ⟨_, _, rfl⟩
  | rdenc j =>
    obtain ⟨hf, rfl⟩ := State.perform_eq_next.mp h
    refine ⟨hf, .inl ?_⟩
    rcases s.inRange_cases (s' := s.respond .ok ((s.encCell j).setWidth 30)) (s.encIndex j)
      with ⟨_, e⟩ | ⟨_, e⟩ <;> rw [e] <;> exact ⟨_, _, rfl⟩
  | rdct v =>
    obtain ⟨hf, rfl⟩ := State.perform_eq_next.mp h
    refine ⟨hf, .inl ?_⟩
    rcases s.inRange_cases (s' := s.respond .ok (tableData (s.params.codeTable.entry (BitVec.ofNat 4 v))))
      (tableIndex v) with ⟨_, e⟩ | ⟨_, e⟩ <;> rw [e] <;> exact ⟨_, _, rfl⟩
  | rdsymlen =>
    obtain ⟨hf, rfl⟩ := State.perform_eq_next.mp h
    exact ⟨hf, .inl ⟨_, _, rfl⟩⟩
  | rdenclen =>
    obtain ⟨hf, rfl⟩ := State.perform_eq_next.mp h
    exact ⟨hf, .inl ⟨_, _, rfl⟩⟩
  | rdinlen =>
    obtain ⟨hf, rfl⟩ := State.perform_eq_next.mp h
    exact ⟨hf, .inl ⟨_, _, rfl⟩⟩

theorem lookup_of_present {T : CodeTable} {v : Symbol} {c : Codeword} (h : T.entry v = some c) :
    lookup T v = .ok c := by simp [lookup, h]

theorem lookup_of_absent {T : CodeTable} {v : Symbol} (h : T.entry v = none) : lookup T v = .error ⟨v⟩ := by
  simp [lookup, h]

theorem State.chunkStep_of_present {v : Symbol} {c : Codeword} (h : s.params.codeTable.entry v = some c) :
    s.chunkStep v = s.encodeChunk v c := by simp [State.chunkStep, lookup_of_present h]

theorem State.chunkStep_of_absent {v : Symbol} (h : s.params.codeTable.entry v = none) :
    s.chunkStep v = s.raiseUnknownSymbol v := by simp [State.chunkStep, lookup_of_absent h]

/-- Everything a Sequencer step can do: encode the chunk, raise Unknown Symbol, commit, or nothing. -/
theorem State.sequencerStep_cases (s : State) :
    (∃ c, s.k < s.nch ∧ s.params.codeTable.entry (nibbleToSymbol (s.nibble s.k)) = some c ∧
        s.sequencerStep = s.encodeChunk (nibbleToSymbol (s.nibble s.k)) c) ∨
    (s.k < s.nch ∧ s.params.codeTable.entry (nibbleToSymbol (s.nibble s.k)) = none ∧
        s.sequencerStep = s.raiseUnknownSymbol (nibbleToSymbol (s.nibble s.k))) ∨
    (s.k = s.nch ∧ s.sequencerStep = s.commit s.nch) ∨
    (s.nch < s.k ∧ s.sequencerStep = s) := by
  unfold State.sequencerStep
  split
  · next hk =>
    cases he : s.params.codeTable.entry (nibbleToSymbol (s.nibble s.k)) with
    | some c => exact .inl ⟨c, hk, rfl, State.chunkStep_of_present he⟩
    | none => exact .inr (.inl ⟨hk, rfl, State.chunkStep_of_absent he⟩)
  · split
    · next hk => exact .inr (.inr (.inl ⟨hk, rfl⟩))
    · exact .inr (.inr (.inr ⟨by omega, rfl⟩))

theorem State.nextEvent_of_nil (h : s.events = []) : s.nextEvent = (.sequencer, []) := by simp [State.nextEvent, h]

theorem State.nextEvent_of_cons {e : Event} {es : List Event} (h : s.events = e :: es) : s.nextEvent = (e, es) := by
  simp [State.nextEvent, h]

theorem step_of_nil (h : s.events = []) : step s = sequencerTurn s := by
  have hs : { s with events := [] } = s := by cases s; simp_all
  simp [step, nextStep, State.nextEvent_of_nil h, performEvent, hs]

theorem step_of_cons {e : Event} {es : List Event} (h : s.events = e :: es) :
    step s = performEvent e { s with events := es } := by
  simp [step, nextStep, State.nextEvent_of_cons h]

/-- Everything a step can do that answers a next state: `s'` is the state with the event taken off. -/
theorem step_cases (h : step s = .next t) :
    ∃ s', s' = { s with events := s.nextEvent.2 } ∧
      ((s.nextEvent.1 = .reset ∧ t = s'.resetBlock) ∨
       (∃ w i, s.nextEvent.1 = .command w ∧ decode w = .ok i ∧ exec i s' = .next t) ∨
       (∃ w r, s.nextEvent.1 = .command w ∧ decode w = .error r ∧ s.fault = none ∧ t = s'.nak .nakIllegal) ∨
       (s.nextEvent.1 = .sequencer ∧ s.fault = none ∧
          ((s.state = .busy ∧ t = s'.sequencerStep) ∨ (s.state ≠ .busy ∧ t = s')))) := by
  refine ⟨_, rfl, ?_⟩
  simp only [step, nextStep] at h
  cases he : s.nextEvent.1 with
  | reset =>
    rw [he] at h
    exact .inl ⟨rfl, by simpa [performEvent] using h.symm⟩
  | command w =>
    rw [he] at h
    simp only [performEvent, hostStep] at h
    split at h
    · next i hi => exact .inr (.inl ⟨w, i, rfl, hi, h⟩)
    · next r hr =>
      obtain ⟨hf, rfl⟩ := State.perform_eq_next.mp h
      exact .inr (.inr (.inl ⟨w, r, rfl, hr, hf, rfl⟩))
  | sequencer =>
    rw [he] at h
    simp only [performEvent, sequencerTurn] at h
    obtain ⟨hf, rfl⟩ := State.perform_eq_next.mp h
    refine .inr (.inr (.inr ⟨rfl, hf, ?_⟩))
    by_cases hb : s.state = .busy
    · exact .inl ⟨hb, if_pos ⟨hb, hf⟩⟩
    · exact .inr ⟨hb, if_neg fun hh => hb hh.1⟩

end Sys2Proof.Machine
end

