-- ==== Sys2Proof/Laws/PerInstr.lean ====
section
/-! SUPPORT. Per command: its word is legal as R54 says and keeps its argument. -/

namespace Sys2Proof.Laws.CommandWord

open Sys2Proof

/-- The fields of the word of a well-formed command: an opcode of the map, RSV = 0, the argument whole, D = 0 outside
LOAD, and ARG = 0 in a command without an argument (R50, R52, R54). -/
def Statement (i : Sys2Proof.Instr) : Prop :=
  i.WellFormed →
    1 ≤ (Fields.ofWord (encode i)).opc.toNat ∧ (Fields.ofWord (encode i)).opc.toNat ≤ 0xB ∧
    (Fields.ofWord (encode i)).rsv = 0 ∧ (Fields.ofWord (encode i)).arg.toNat = i.argument ∧
    ((Fields.ofWord (encode i)).opc = 1 ∨ (Fields.ofWord (encode i)).d = 0) ∧
    ((Fields.ofWord (encode i)).opc.toNat ∈ [3, 4, 5, 9, 0xA, 0xB] → i.argument = 0)

theorem statement_of_fields {i : Sys2Proof.Instr}
    (h : 1 ≤ i.opcode.toNat ∧ i.opcode.toNat ≤ 0xB ∧ (i.opcode = 1 ∨ i.dataBit = 0) ∧
      (i.opcode.toNat ∈ [3, 4, 5, 9, 0xA, 0xB] → i.argument = 0)) : Statement i := by
  intro hw
  rw [Fields.ofWord_encode]
  exact ⟨h.1, h.2.1, rfl, by simpa [Instr.fields] using hw, h.2.2⟩

theorem load (i : Nat) (b : Bit) : Statement (.load i b) :=
  statement_of_fields (by simp [Instr.opcode])

theorem setlen (n : Nat) : Statement (.setlen n) :=
  statement_of_fields (by simp [Instr.opcode, Instr.dataBit])

theorem start : Statement .start := statement_of_fields (by decide)

theorem clear : Statement .clear := statement_of_fields (by decide)

theorem rdstat : Statement .rdstat := statement_of_fields (by decide)

theorem rdsym (k : Nat) : Statement (.rdsym k) :=
  statement_of_fields (by simp [Instr.opcode, Instr.dataBit])

theorem rdenc (j : Nat) : Statement (.rdenc j) :=
  statement_of_fields (by simp [Instr.opcode, Instr.dataBit])

theorem rdct (v : Nat) : Statement (.rdct v) :=
  statement_of_fields (by simp [Instr.opcode, Instr.dataBit])

theorem rdsymlen : Statement .rdsymlen := statement_of_fields (by decide)

theorem rdenclen : Statement .rdenclen := statement_of_fields (by decide)

theorem rdinlen : Statement .rdinlen := statement_of_fields (by decide)

end Sys2Proof.Laws.CommandWord
end

