-- ==== Sys2Proof/Laws/Run.lean ====
section
/-! SUPPORT. A run one step at a time. -/

namespace Sys2Proof.Machine

theorem core_run_zero (s : State) : Sys2Proof.core.run 0 s = .next s := rfl

/-- A run whose first step answers a next state goes on from there. -/
theorem core_run_succ {s t : State} (n : Nat) (h : step s = .next t) :
    Sys2Proof.core.run (n + 1) s = Sys2Proof.core.run n t := by
  have h' : Sys2Proof.core.step s = .next t := h
  simp only [Host.Core.run]
  split
  · next heq =>
    rw [h'] at heq
    cases heq
    rfl
  · next heq =>
    rw [h'] at heq
    cases heq
  · next heq =>
    rw [h'] at heq
    cases heq

end Sys2Proof.Machine
end

