-- ==== Sys2Proof/Tests/Slice0.lean ====
section
/-! SUPPORT. Tests on the vectors of spec/95_test_vectors.md (N_MAX = 16, as there), and for each statement of
Certificates/Slice0/Obligations.lean that has hypotheses a state and operands that meet them. -/

namespace Sys2Proof.Tests

open Sys2Proof Sys2Proof.Machine

/-! ## The small states the tests stand on -/

/-- 95 T3AD: 3, A and D present, all others absent. -/
def t3ad : CodeTable := ((Vector.replicate 16 none).set 3 (some 0x15) |>.set 10 (some 0x16) |>.set 13 (some 0x1B))

/-- 95 T_empty. -/
def tEmpty : CodeTable := Vector.replicate 16 none

/-- N_MAX = 16 and T3AD. -/
def p16 : Params := ⟨16, t3ad⟩

/-- The block after reset under `p16`. -/
def s0 : State := State.resetWith p16

/-- The cells of IN_BUF from index 0 on. -/
def cells (bits : List Bit) : Memory 1 := Memory.writeSeq [] 0 bits

/-- The input of Scenario 3, with a stale bit in cell 11, in STATE `st`. -/
def loaded (st : RunState) : State :=
  { s0 with inBuf := cells [1, 1, 0, 1, 0, 0, 1, 1, 1, 0, 1, 1], inLen := 11, state := st }

/-- The state before the commit step of trace S-A, and the state after it. -/
def finished : State :=
  { loaded .done with
    symBuf := Memory.writeSeq [] 0 [0xD, 0x3, 0xA], symLen := 3, encLen := 15, k := 3
    encBuf := Memory.writeSeq [] 0 [1, 1, 0, 1, 1, 1, 0, 1, 0, 1, 1, 0, 1, 1, 0] }

/-- ERROR with Symbol F. -/
def failed : State := { loaded .error with errSym := 0xF }

/-- A fact of the next state, if there is one. -/
def after {α : Type} (o : Host.Outcome State Fault Refusal) (f : State → α) : Option α :=
  match o with
  | .next s => some (f s)
  | .fault _ => none
  | .refused _ => none

/-- The response words given. -/
def replies (o : Host.Outcome State Fault Refusal) : Option (List Word) := after o State.responses

/-! ## Words (V53 to V72) -/

theorem test_word_load : decode 0x11000003 = .ok (.load 3 1) := rfl
theorem test_word_load_zero : decode 0x10000000 = .ok (.load 0 0) := rfl
theorem test_word_setlen : decode 0x20FFFFFF = .ok (.setlen 16777215) := rfl
theorem test_word_start : decode 0x30000000 = .ok .start := rfl
theorem test_word_clear : decode 0x40000000 = .ok .clear := rfl
theorem test_word_rdstat : decode 0x50000000 = .ok .rdstat := rfl
theorem test_word_rdsym : decode 0x60000002 = .ok (.rdsym 2) := rfl
theorem test_word_rdenc : decode 0x7000000E = .ok (.rdenc 14) := rfl
theorem test_word_rdct : decode 0x80000010 = .ok (.rdct 16) := rfl
theorem test_word_rdsymlen : decode 0x90000000 = .ok .rdsymlen := rfl
theorem test_word_rdenclen : decode 0xA0000000 = .ok .rdenclen := rfl
theorem test_word_rdinlen : decode 0xB0000000 = .ok .rdinlen := rfl

/-- V53, V54, V57, V58, V60, V62, V63, V71, V72. -/
theorem test_illegal_words :
    [0x00000000, 0x08000000, 0x12000000, 0x1F000000, 0x21000000, 0x30000001, 0x31000000, 0xB0000001, 0xC0000000,
      0xD0000000, 0xE0000000, 0xF0000000, 0xFFFFFFFF, 0x50000001].all
      (fun w => match decode w with | .ok _ => false | .error _ => true) = true := by decide

/-- One bit of each field of a legal word, so that no field is read from a neighbour's place (R50). -/
theorem test_field_edges : decode 0x10800000 = .ok (.load 8388608 0) ∧ decode 0x11000001 = .ok (.load 1 1) ∧
    decode 0x6000FFFF = .ok (.rdsym 65535) := ⟨rfl, rfl, rfl⟩

/-- R61's table, at operands that fit and at one that does not. -/
theorem test_assembler : assemble (.load 3 1) = some 0x11000003 ∧ assemble (.setlen 11) = some 0x2000000B ∧
    assemble (.rdct 13) = some 0x8000000D ∧ assemble (.rdenc 16777216) = none := by decide

theorem test_assembler_text : assembleLine "LOAD 3, 1 ; a bit" = some [0x11000003] ∧
    assembleLine "  SETLEN 0xB" = some [0x2000000B] ∧ assembleLine ".word 0x12000010" = some [0x12000010] ∧
    assembleLine "; nothing" = some [] ∧ assembleLine "LOAD 3, 2" = none ∧ assembleLine "LOAD 3" = none ∧
    assembleLine "RDSTAT" = some [0x50000000] := by decide

/-- P1 lines 1 to 5 (R62). -/
theorem test_loadbits : (loadBits [1, 1, 0, 1]).map encode =
    [0x11000000, 0x11000001, 0x10000002, 0x11000003, 0x20000004] := by decide

/-- An ill-formed term for the one check of WellFormed, for each command with an argument. -/
theorem test_wellFormed_refuses : ¬(Instr.load 16777216 0).WellFormed ∧ ¬(Instr.setlen 16777216).WellFormed ∧
    ¬(Instr.rdsym 16777216).WellFormed ∧ ¬(Instr.rdenc 16777216).WellFormed ∧ ¬(Instr.rdct 16777216).WellFormed ∧
    (Instr.rdct 16777215).WellFormed := by decide

/-! ## The datapath (V1 to V52) -/

theorem test_chunk : chunk ([] : List Bit) 4 = [] ∧ chunk ([0, 1] : List Bit) 4 = [#v[0, 1, 0, 0]] ∧
    chunk ([1, 0, 1, 1, 0] : List Bit) 4 = [#v[1, 0, 1, 1], #v[0, 0, 0, 0]] ∧
    chunk ([1, 0, 1, 1, 1] : List Bit) 3 = [#v[1, 0, 1], #v[1, 1, 0]] := by decide

/-- V11, and W3's third nibble with the stale bit beyond IN_LEN. -/
theorem test_hardware_nibble :
    ({ s0 with inBuf := cells [1, 0, 1, 1, 0, 1, 1, 1], inLen := 5 } : State).nibble 0 = #v[1, 0, 1, 1] ∧
    ({ s0 with inBuf := cells [1, 0, 1, 1, 0, 1, 1, 1], inLen := 5 } : State).nibble 1 = #v[0, 0, 0, 0] ∧
    (loaded .busy).nibble 2 = #v[1, 0, 1, 0] := by decide

theorem test_symbol_mapper : nibbleToSymbol #v[1, 0, 0, 0] = 8 ∧ nibbleToSymbol #v[0, 0, 0, 1] = 1 ∧
    nibbleToSymbol #v[1, 1, 0, 1] = 13 ∧ nibbleOfSymbol 6 = #v[0, 1, 1, 0] ∧ hexDigit 10 = 'A' ∧
    hexDigit 9 = '9' ∧ hexDigit 15 = 'F' := by decide

/-- V23 to V25, V28. -/
theorem test_lookup : lookup t3ad 0x3 = .ok 0x15 ∧ lookup t3ad 0xA = .ok 0x16 ∧ lookup t3ad 0xD = .ok 0x1B ∧
    lookup t3ad 0x0 = .error ⟨0⟩ := ⟨rfl, rfl, rfl, rfl⟩

/-- V30 and V31: two equal codewords are refused as a configuration, a partial table is admitted. -/
theorem test_configure : configure 16 ((tEmpty.set 1 (some 0x09)).set 2 (some 0x09)) = none ∧
    configure 16 t3ad = some p16 ∧ configure 0 t3ad = none ∧ configure 4194305 t3ad = none := by decide +kernel

/-- GK1's table is a default configuration (R79, R80). -/
theorem test_standard_table : CodeTable.standard.IsDefault := by decide +kernel

/-- R80, R81: the default table over any `ct` has the three given entries. -/
theorem test_default_table (ct : Symbol → Codeword) : (CodeTable.default ct).entry 0x3 = some 0x15 ∧
    (CodeTable.default ct).entry 0xA = some 0x16 ∧ (CodeTable.default ct).entry 0xD = some 0x1B ∧
    (CodeTable.default ct).entry 0x8 = some (ct 0x8) := by
  simp [CodeTable.default, CodeTable.entry]

/-- V35, V37. -/
theorem test_concatenator : concatCodewords [0x1B, 0x15, 0x16] = [1, 1, 0, 1, 1, 1, 0, 1, 0, 1, 1, 0, 1, 1, 0] ∧
    place [] 2 0x16 = [(10, 1), (11, 0), (12, 1), (13, 1), (14, 0)] := by decide

/-- V42 (Scenario 3), V40, V45, V49, V51. -/
theorem test_encode :
    encodeBits t3ad [1, 1, 0, 1, 0, 0, 1, 1, 1, 0, 1] =
      .ok ⟨[0xD, 0x3, 0xA], [1, 1, 0, 1, 1, 1, 0, 1, 0, 1, 1, 0, 1, 1, 0]⟩ ∧
    encodeBits tEmpty [] = .ok ⟨[], []⟩ ∧ encodeBits t3ad [0, 0, 0, 0, 1, 1, 1, 1] = .error ⟨0⟩ ∧
    encodeBits t3ad [1, 0, 1, 0, 0] = .error ⟨0⟩ ∧
    encodeBits CodeTable.standard [1, 1, 0, 1, 1] = .ok ⟨[0xD, 0x8], [1, 1, 0, 1, 1, 1, 0, 0, 1, 0]⟩ :=
  ⟨rfl, rfl, rfl, rfl, rfl⟩

/-! ## The host commands (V73 to V97) -/

/-- V73, V74. -/
theorem test_load : after (exec (.load 15 1) s0) State.inBuf = some [(15, 1)] ∧
    replies (exec (.load 15 1) s0) = some [0x00000000] ∧ replies (exec (.load 16 1) s0) = some [0x80000000] := by decide

/-- V75, V77. -/
theorem test_load_busy : replies (exec (.load 0 1) (loaded .busy)) = some [0x40000000] ∧
    replies (exec (.load 16 1) (loaded .busy)) = some [0x40000000] := by decide

/-- V78. -/
theorem test_setlen_done : after (exec (.setlen 16) finished) (fun s => (s.inLen, s.state, s.symLen, s.encLen)) =
    some (16, .done, 3, 15) := by decide

/-- V79, V80. -/
theorem test_setlen_range : replies (exec (.setlen 17) s0) = some [0x80000000] ∧
    replies (exec (.setlen 0) s0) = some [0x00000000] := by decide

/-- V81, V82. -/
theorem test_start : after (exec .start finished)
      (fun s => (s.state, s.k, s.symLen, s.encLen, s.responses)) = some (.busy, 0, 0, 0, [0x00000000]) ∧
    replies (exec .start (loaded .busy)) = some [0x40000000] := by decide

/-- V83, P6: FAULT is set, there is no response, and no agent takes a further step. -/
theorem test_start_unwritten :
    after (exec .start { s0 with inLen := 1 }) (fun s => (s.fault, s.responses, s.state)) =
      some (some .unwrittenInput, [], .idle) ∧
    step { s0 with fault := some .unwrittenInput } = .fault .unwrittenInput := ⟨by decide, rfl⟩

/-- V84, V85. -/
theorem test_clear : after (exec .clear { loaded .busy with k := 1 }) (fun s => (s.state, s.k, s.inLen)) =
    some (.idle, 0, 11) ∧ after (exec .clear failed) (fun s => (s.state, s.errSym)) = some (.idle, 0) := by decide

/-- V86, V87. -/
theorem test_rdstat : replies (exec .rdstat s0) = some [0] ∧ replies (exec .rdstat (loaded .busy)) = some [1] ∧
    replies (exec .rdstat finished) = some [2] ∧ replies (exec .rdstat failed) = some [0x3F] ∧
    replies (exec .rdstat { failed with errSym := 8 }) = some [0x23] := by decide

/-- V88, V89. -/
theorem test_rdsym : replies (exec (.rdsym 0) finished) = some [0xD] ∧ replies (exec (.rdsym 2) finished) = some [0xA] ∧
    replies (exec (.rdsym 3) finished) = some [0x80000000] ∧
    replies (exec (.rdsym 0) (loaded .busy)) = some [0x80000000] := by decide

/-- V90. -/
theorem test_rdenc : replies (exec (.rdenc 0) finished) = some [1] ∧ replies (exec (.rdenc 7) finished) = some [1] ∧
    replies (exec (.rdenc 14) finished) = some [0] ∧ replies (exec (.rdenc 15) finished) = some [0x80000000] := by decide

/-- V91, V92, V94. -/
theorem test_rdct : replies (exec (.rdct 3) s0) = some [0x35] ∧ replies (exec (.rdct 13) s0) = some [0x3B] ∧
    replies (exec (.rdct 15) s0) = some [0] ∧ replies (exec (.rdct 16) s0) = some [0x80000000] := by decide

/-- V95, V97. -/
theorem test_lengths : replies (exec .rdsymlen finished) = some [3] ∧ replies (exec .rdenclen finished) = some [0xF] ∧
    replies (exec .rdinlen finished) = some [0xB] := by decide

/-- V76: ILLEGAL before BUSY. -/
theorem test_illegal_while_busy :
    replies (step { loaded .busy with events := [.command 0x12000010] }) = some [0xC0000000] := by decide

/-! ## The Sequencer (traces S-A, S-B, S-D) -/

/-- S-A step 1. -/
theorem test_chunk_step : after (step (loaded .busy)) (fun s => (s.symBuf, s.encBuf, s.k, s.state, s.symLen)) =
    some ([(0, 0xD)], [(0, 1), (1, 1), (2, 0), (3, 1), (4, 1)], 1, .busy, 0) := by decide

/-- S-A step 3, the padded chunk. -/
theorem test_padded_chunk_step : after (step { loaded .busy with k := 2 }) (fun s => (s.symBuf, s.k)) =
    some ([(2, 0xA)], 3) := by decide

/-- S-A step 4. -/
theorem test_commit_step : after (step { loaded .busy with k := 3 }) (fun s => (s.symLen, s.encLen, s.state, s.k)) =
    some (3, 15, .done, 3) := by decide

/-- S-B step 2: F is absent in T3AD too. -/
theorem test_absent_step :
    after (step { loaded .busy with inBuf := cells [0, 0, 1, 1, 1, 1, 1, 1], inLen := 8, k := 1 })
      (fun s => (s.state, s.errSym, s.k, s.symLen, s.encLen)) = some (.error, 0xF, 1, 0, 0) := by decide

/-- S-D, and the reset event in a faulted model. -/
theorem test_disabled_and_reset : step { finished with events := [.sequencer] } = .next finished ∧
    after (step { finished with fault := some .unwrittenInput, events := [.reset] })
      (fun s => (s.state, s.symLen, s.fault)) = some (.idle, 0, some .unwrittenInput) := ⟨rfl, by decide⟩

/-- The first step after reset runs the word that the Host issues, whatever the configuration. -/
theorem test_first_step_after_reset :
    [0x11000003, 0x2000000B, 0x30000000, 0x40000000, 0x50000000, 0x60000002, 0x7000000E, 0x8000000D, 0x90000000,
      0xA0000000, 0xB0000000].all
      (fun w => (after (step (State.reset.withFetchWord 32 w)) fun _ => true).isSome) = true := by decide

/-! ## Witnesses: states and operands that meet the hypotheses of each statement, all together -/

theorem written_bound {w : Nat} (vs : List (BitVec w)) (i : Nat) (h : (Memory.writeSeq [] 0 vs).read i ≠ none) :
    i < vs.length := by
  rw [Memory.read_writeSeq] at h
  split at h
  · omega
  · exact absurd rfl h

/-- IDLE or BUSY before the first chunk, with `bits` loaded and the first `n` of them the input. -/
def fresh (st : RunState) (bits : List Bit) (n : Nat) : State := { s0 with state := st, inBuf := cells bits, inLen := n }

theorem p16_admitted : p16.Admitted := by decide +kernel

theorem fresh_inv (st : RunState) (bits : List Bit) (n : Nat) (hst : st = .idle ∨ st = .busy) (hb : bits.length ≤ 16)
    (hn : n ≤ bits.length) : (fresh st bits n).Inv where
  admitted := p16_admitted
  inWf := Memory.writeSeq_wf _ _ _ Memory.nil_wf
  symWf := Memory.nil_wf
  encWf := Memory.nil_wf
  inBound := fun i h => Nat.lt_of_lt_of_le (written_bound bits i h) hb
  symBound := fun _ h => absurd rfl h
  encBound := fun _ h => absurd rfl h
  inLen_le := Nat.le_trans hn hb
  k_le := Nat.zero_le _
  noResult := fun _ => ⟨rfl, rfl⟩
  result := fun h => by rcases hst with rfl | rfl <;> cases h
  busyChunk := fun _ => Nat.zero_le _
  noError := fun _ => rfl
  idleChunk := fun _ => rfl
  errorAbsent := fun h => by rcases hst with rfl | rfl <;> cases h
  busyInput := fun _ i hi => by
    have hi : i < n := hi
    simp only [fresh, cells, Memory.read_writeSeq]
    rw [if_pos (by omega)]
    simp
    omega
  busySymbols := fun _ q h => absurd h (Nat.not_lt_zero q)
  coded := fun q h => absurd h (Nat.not_lt_zero q)

theorem finished_inv : finished.Inv where
  admitted := p16_admitted
  inWf := Memory.writeSeq_wf _ _ _ Memory.nil_wf
  symWf := Memory.writeSeq_wf _ _ _ Memory.nil_wf
  encWf := Memory.writeSeq_wf _ _ _ Memory.nil_wf
  inBound := fun i h => Nat.lt_of_lt_of_le (written_bound _ i h) (by decide)
  symBound := fun i h => Nat.lt_of_lt_of_le (written_bound _ i h) (by decide)
  encBound := fun i h => Nat.lt_of_lt_of_le (written_bound _ i h) (by decide)
  inLen_le := by decide
  k_le := by decide
  noResult := fun h => absurd rfl h
  result := fun _ => ⟨rfl, rfl⟩
  busyChunk := fun h => by cases h
  noError := fun _ => rfl
  idleChunk := fun h => by cases h
  errorAbsent := fun h => by cases h
  busyInput := fun h => by cases h
  busySymbols := fun h => by cases h
  coded := fun q h => by
    have h : q < 3 := h
    interval_cases q <;> exact ⟨_, _, rfl, rfl, by decide⟩

theorem witness_DecodingInvertsEncoding : (Instr.load 16777215 1).WellFormed ∧ Instr.start.WellFormed ∧
    (Instr.setlen 0).WellFormed := by decide

theorem witness_DecodedCommandEncodesToItsWord : decode 0x11000003 = .ok (.load 3 1) := rfl

theorem witness_AssemblerSpellsTheCommands : lineWord "LOAD" [3, 1] = some 0x11000003 ∧ "LOAD" ≠ ".word" := by decide

theorem witness_StepRunsTheDecodedCommand : (s0.issue 0x30000000).events = .command 0x30000000 :: [] ∧
    decode 0x30000000 = .ok .start := ⟨rfl, rfl⟩

theorem illegal_zero : ∀ i, decode 0x00000000 ≠ .ok i := fun i h => by
  rw [show decode 0x00000000 = .error (.reservedOpcode 0) from rfl] at h
  cases h

theorem witness_LegalWordsAndTheNakOfAnIllegalOne : (s0.issue 0x00000000).events = .command 0x00000000 :: [] ∧
    (s0.issue 0x00000000).fault = none ∧ ∀ i, decode 0x00000000 ≠ .ok i := ⟨rfl, rfl, illegal_zero⟩

theorem witness_BusyRejectsInputAndStart : (loaded .busy).fault = none ∧ HasBusyCheck (.load 16 1) ∧
    HasBusyCheck (.setlen 17) ∧ HasBusyCheck .start ∧ (loaded .busy).state = .busy ∧ IsRead (.rdsym 0) :=
  ⟨rfl, .inl ⟨_, _, rfl⟩, .inr (.inl ⟨_, rfl⟩), .inr (.inr rfl), rfl, .inr (.inl ⟨_, rfl⟩)⟩

theorem witness_OutOfRangeArgumentGetsNakRange : finished.fault = none ∧
    ¬(HasBusyCheck (.load 16 1) ∧ finished.state = .busy) ∧ finished.OutOfRange (.load 16 1) ∧
    finished.OutOfRange (.setlen 17) ∧ finished.OutOfRange (.rdsym 3) ∧ finished.OutOfRange (.rdenc 15) ∧
    finished.OutOfRange (.rdct 16) := by
  refine ⟨rfl, (fun h => by cases h.2), .inl ⟨_, _, rfl, by decide⟩, .inr (.inl ⟨_, rfl, by decide⟩), ?_, ?_, ?_⟩
  · exact .inr (.inr (.inl ⟨_, rfl, by decide⟩))
  · exact .inr (.inr (.inr (.inl ⟨_, rfl, by decide⟩)))
  · exact .inr (.inr (.inr (.inr ⟨_, rfl, by decide⟩)))

/-- The second part: a NAK that a step gives. -/
theorem witness_EveryNakLeavesTheBlock : ∃ t, step (s0.issue 0x11000010) = .next t ∧
    t.responses = s0.responses ++ [0x80000000] ∧ (0x80000000 : Word).extractLsb' 30 2 ≠ 0b00 :=
  ⟨_, rfl, by decide, by decide⟩

theorem witness_ResponseFollowsTheCheckOrder :
    ({ loaded .busy with events := [.command 0x12000010] } : State).events = .command 0x12000010 :: [] ∧
    ({ loaded .busy with events := [.command 0x12000010] } : State).fault = none := ⟨rfl, rfl⟩

theorem witness_EveryCommandWordGetsOneResponse : (s0.issue 0x30000000).events = .command 0x30000000 :: [] ∧
    s0.fault = none ∧ ∀ i, decode 0x30000000 = .ok i → ¬s0.StartFaults i :=
  ⟨rfl, rfl, fun _ _ h => h.2.2 fun _ hi => absurd hi (Nat.not_lt_zero _)⟩

theorem witness_LoadWritesOneInputBit : s0.fault = none ∧ s0.state ≠ .busy ∧ 15 < s0.params.nMax ∧
    s0.params.nMax ≤ 16 ∧ (loaded .busy).fault = none ∧ (loaded .busy).state = .busy := by decide

theorem witness_SetlenWritesTheInputLength : s0.fault = none ∧ s0.state ≠ .busy ∧ 16 ≤ s0.params.nMax ∧
    s0.params.nMax < 17 ∧ (loaded .busy).fault = none ∧ (loaded .busy).state = .busy := by decide

theorem witness_StartBeginsARun : (loaded .done).fault = none ∧ (loaded .done).state ≠ .busy ∧
    (∀ i < (loaded .done).inLen, (loaded .done).inBuf.read i ≠ none) ∧
    (∃ i < ({ s0 with inLen := 1 } : State).inLen, s0.inBuf.read i = none) ∧ (loaded .busy).state = .busy :=
  ⟨rfl, by decide, by decide, ⟨0, by decide, rfl⟩, rfl⟩

theorem witness_ClearDiscardsRunAndResult : (loaded .busy).fault = none ∧ failed.fault = none ∧
    (fresh .idle [1, 1, 0, 1] 4).Inv ∧ (fresh .idle [1, 1, 0, 1] 4).state = .idle :=
  ⟨rfl, rfl, fresh_inv _ _ _ (.inl rfl) (by decide) (by decide), rfl⟩

theorem witness_RdstatReturnsTheStatusWord : failed.fault = none ∧ (fresh .busy [1, 1, 0, 1] 4).Inv ∧
    (fresh .busy [1, 1, 0, 1] 4).state = .busy :=
  ⟨rfl, fresh_inv _ _ _ (.inr rfl) (by decide) (by decide), rfl⟩

theorem witness_RdsymReturnsTheSymbol : finished.fault = none ∧ 2 < finished.symLen ∧ finished.symLen ≤ 3 ∧
    finished.symBuf.read 2 = some 0xA ∧ finished.Inv ∧ (fresh .idle [1, 1, 0, 1] 4).Inv ∧
    (fresh .idle [1, 1, 0, 1] 4).state ≠ .done :=
  ⟨rfl, by decide, by decide, rfl, finished_inv, fresh_inv _ _ _ (.inl rfl) (by decide) (by decide), by decide⟩

theorem witness_RdencReturnsTheBit : finished.fault = none ∧ 14 < finished.encLen ∧ finished.encLen ≤ 15 ∧
    finished.encBuf.read 14 = some 0 ∧ finished.Inv := ⟨rfl, by decide, by decide, rfl, finished_inv⟩

theorem witness_RdctReturnsTheTableEntry : s0.fault = none ∧ s0.params.codeTable.entry (BitVec.ofNat 4 13) = some 0x1B ∧
    s0.params.codeTable.entry (BitVec.ofNat 4 15) = none ∧ 16 ≤ 16 := by decide

theorem witness_LengthReadsReturnTheLengths : finished.Inv ∧ finished.fault = none ∧
    let s : State := { fresh .idle [] 0 with events := [.command 0x30000000, .sequencer] }
    s.Inv ∧ s.fault = none ∧ s.state ≠ .busy ∧ s.inLen = 0 ∧ s.events = .command 0x30000000 :: .sequencer :: [] :=
  ⟨finished_inv, rfl, { fresh_inv .idle [] 0 (.inl rfl) (by decide) (by decide) with }, rfl, by decide, rfl, rfl⟩

theorem witness_ReadsHaveNoSideEffect : IsRead (.rdenc 0) ∧ finished.fault = none ∧
    ∃ t, exec (.load 15 1) finished = .next t := ⟨.inr (.inr (.inl ⟨_, rfl⟩)), rfl, _, rfl⟩

theorem witness_LoadbitsLeavesTheGivenInput :
    let s : State := { s0 with events := (loadBits [1, 1, 0, 1]).map (fun i => .command (encode i)) ++ [.sequencer] }
    s.fault = none ∧ s.state ≠ .busy ∧ [1, 1, 0, 1].length ≤ s.params.nMax ∧ s.params.nMax ≤ 2 ^ 22 ∧
      s.events = (loadBits [1, 1, 0, 1]).map (fun i => .command (encode i)) ++ [.sequencer] := by decide

theorem witness_DisabledSequencerDoesNothing :
    ({ finished with events := [.sequencer] } : State).nextEvent.1 = .sequencer ∧ finished.nextEvent.1 = .sequencer ∧
    finished.fault = none ∧ finished.state ≠ .busy ∧
    ({ s0 with fault := some .unwrittenInput } : State).nextEvent.1 = .sequencer ∧
    ({ s0 with fault := some .unwrittenInput } : State).fault = some .unwrittenInput := by decide

theorem witness_ChunkStepStoresSymbolAndCodeword :
    let s : State := { loaded .busy with k := 2, events := [.sequencer] }
    s.events = .sequencer :: [] ∧ s.state = .busy ∧ s.fault = none ∧ s.k < cdiv s.inLen 4 ∧
      s.params.codeTable.entry (nibbleValue (s.nibble s.k)) = some 0x16 := by decide

theorem witness_ChunkStepRaisesUnknownSymbol :
    let s : State := { loaded .busy with inBuf := cells [1, 1, 1, 1], inLen := 4, events := [.sequencer] }
    s.events = .sequencer :: [] ∧ s.state = .busy ∧ s.fault = none ∧ s.k < cdiv s.inLen 4 ∧
      s.params.codeTable.entry (nibbleValue (s.nibble s.k)) = none := by decide

theorem witness_CommitStepMakesTheResultVisible :
    let s : State := { loaded .busy with k := 3, events := [.sequencer] }
    s.events = .sequencer :: [] ∧ s.state = .busy ∧ s.fault = none ∧ s.k = cdiv s.inLen 4 := by decide

theorem witness_RunReadsTheInputAsItStoodAtStart :
    (∃ t, step { loaded .busy with events := [.sequencer] } = .next t) ∧
    (∃ t, step { loaded .busy with events := [.command 0x11000000] } = .next t) ∧
    decode 0x11000000 = .ok (.load 0 1) ∧ (loaded .busy).state = .busy := ⟨⟨_, rfl⟩, ⟨_, rfl⟩, rfl, rfl⟩

theorem witness_PartialResultsAreUnreadable : (fresh .busy [1, 1, 0, 1] 4).Inv ∧
    (fresh .busy [1, 1, 0, 1] 4).fault = none ∧ (fresh .busy [1, 1, 0, 1] 4).state ≠ .done :=
  ⟨fresh_inv _ _ _ (.inr rfl) (by decide) (by decide), rfl, by decide⟩

/-- With a chunk to encode, with an absent Symbol, and with nothing left to encode. -/
theorem witness_BusySequencerAlwaysMoves : (fresh .busy [1, 1, 0, 1] 4).Inv ∧ (fresh .busy [1, 1, 1, 1] 4).Inv ∧
    (fresh .busy [] 0).Inv ∧ (fresh .busy [] 0).state = .busy ∧ (fresh .busy [] 0).fault = none :=
  ⟨fresh_inv _ _ _ (.inr rfl) (by decide) (by decide), fresh_inv _ _ _ (.inr rfl) (by decide) (by decide),
    fresh_inv _ _ _ (.inr rfl) (by decide) (by decide), rfl, rfl⟩

/-- Scenario 3, and a run that fails at its second chunk. -/
theorem witness_RunComputesEncodeInTheStatedSteps : (loaded .idle).fault = none ∧ (loaded .idle).state ≠ .busy ∧
    (loaded .idle).InputWritten ∧ (loaded .idle).events = [] ∧
    (∃ out, encodeBits (loaded .idle).params.codeTable (loaded .idle).inputBits = .ok out) ∧
    (∃ v, encodeBits t3ad (fresh .idle [0, 0, 1, 1, 1, 1, 1, 1] 8).inputBits = .error ⟨v⟩) :=
  ⟨rfl, by decide, by decide, rfl, ⟨_, rfl⟩, ⟨_, rfl⟩⟩

theorem witness_EveryInterleavingComputesEncode :
    let es : List Event := [.sequencer, .command 0x11000000, .command 0x50000000, .sequencer]
    let s : State := { loaded .idle with events := .command 0x30000000 :: es }
    s.fault = none ∧ s.state ≠ .busy ∧ s.InputWritten ∧ s.events = .command 0x30000000 :: es ∧
      ∀ e ∈ es, ¬e.EndsRun := ⟨rfl, by decide, by decide, rfl, by simp [Event.EndsRun]⟩

theorem witness_EveryFairExecutionComputesEncode :
    let es : List Event := [.sequencer, .command 0x11000000, .sequencer]
    let s : State := { loaded .idle with events := .command 0x30000000 :: (es ++ [.reset]) }
    s.fault = none ∧ s.state ≠ .busy ∧ s.InputWritten ∧ s.events = .command 0x30000000 :: (es ++ [.reset]) ∧
      ∀ e ∈ es, ¬e.EndsRun := ⟨rfl, by decide, by decide, rfl, by simp [Event.EndsRun]⟩

/-- Scenario 3's result, and Scenario 4's error. -/
theorem witness_EndedRunIsReadByTheCommands : finished.Inv ∧
    finished.Holds ⟨[0xD, 3, 0xA], [1, 1, 0, 1, 1, 1, 0, 1, 0, 1, 1, 0, 1, 1, 0]⟩ ∧ failed.Reports 0xF ∧
    (loaded .busy).state = .busy ∧ ({ finished with fault := some .unwrittenInput } : State).fault ≠ none :=
  ⟨finished_inv, ⟨⟨.inl rfl, rfl⟩, rfl, rfl, rfl, rfl, by decide, by decide⟩, ⟨⟨.inr rfl, rfl⟩, rfl, rfl, rfl, rfl⟩, rfl,
    by decide⟩

/-- R106, the review's case: DONE, a SETLEN over an unwritten cell, then START leaves a faulted state, which is the end of
no run. -/
theorem test_faulted_is_no_end :
    after (step { finished with events := [.command 0x20000010, .command 0x30000000] }) (fun s =>
      after (step s) fun t => (t.state, t.fault)) = some (some (.done, some .unwrittenInput)) ∧
    ¬({ finished with inLen := 16, fault := some .unwrittenInput } : State).RunEnded :=
  ⟨by decide, fun h => by cases h.2⟩

theorem witness_ChunkCountsAndPadding : (chunk ([1, 0, 1, 1, 0] : List Bit) 4)[1]? = some #v[0, 0, 0, 0] := by decide

theorem witness_HardwareNibbleIsTheChunk : (loaded .busy).InputWritten := by decide

theorem witness_PaddingIsStable : 3 ≤ (4 - ([1, 1, 0, 1, 1] : List Bit).length % 4) % 4 := by decide

theorem witness_OutputBitPositions : ([0x1B, 0x15] : List Codeword)[7 / 5]? = some 0x15 := by decide

theorem witness_EncodeLengthLaw : ∃ out, encodeBits t3ad [1, 0, 1] = .ok out := ⟨_, rfl⟩

theorem witness_EncodePrefixDecomposition : ([1, 1, 1, 1] : List Bit).length % 4 = 0 ∧
    encodeBits t3ad [1, 1, 1, 1] = .error ⟨0xF⟩ := ⟨rfl, rfl⟩

theorem witness_EncodedBitsDetermineTheSymbols : t3ad.Admitted ∧ ∃ x y, encodeBits t3ad [1, 0, 1] = .ok x ∧
    encodeBits t3ad [1, 0, 1, 0] = .ok y ∧ x.bits = y.bits := ⟨p16_admitted.2.2, _, _, rfl, rfl, rfl⟩

theorem witness_FullTableNeverRaisesUnknownSymbol : CodeTable.standard.Full ∧
    ∃ t, step { failed with params := ⟨16, CodeTable.standard⟩ } = .next t ∧ t.state = .error :=
  ⟨test_standard_table.2.1, _, rfl, rfl⟩

theorem witness_ResetLeavesTheStatedValues : s0 = State.resetWith p16 := rfl

theorem witness_ResetEventPutsBackTheResetValues :
    ({ finished with events := [.reset] } : State).events = .reset :: [] := rfl

theorem witness_ConfigurationIsImmutable : ∃ t, step (loaded .busy) = .next t := ⟨_, rfl⟩

theorem witness_OnlyTheStatedEventsChangeState : ∃ t, step (s0.issue 0x30000000) = .next t ∧ t.state ≠ s0.state :=
  ⟨_, rfl, by decide⟩

theorem witness_OnlyTheStatedEventsWriteTheBuffers : ∃ t, step (s0.issue 0x11000003) = .next t ∧ t.inBuf ≠ s0.inBuf :=
  ⟨_, rfl, by decide⟩

theorem witness_ModelFaultIsFinal :
    (let s : State := ({ s0 with inLen := 1 } : State).issue 0x30000000
     s.events = .command 0x30000000 :: [] ∧ s.fault = none ∧ s.state ≠ .busy ∧ ∃ i < s.inLen, s.inBuf.read i = none) ∧
    (∃ t, step (({ s0 with inLen := 1 } : State).issue 0x30000000) = .next t ∧ t.fault ≠ none) ∧
    (∃ t, step { s0 with fault := some .unwrittenInput, events := [.reset] } = .next t) ∧
    ({ s0 with fault := some .unwrittenInput } : State).nextEvent.1 ≠ .reset :=
  ⟨⟨rfl, rfl, by decide, 0, by decide, rfl⟩, ⟨_, rfl, by decide⟩, ⟨_, rfl⟩, by decide⟩

theorem witness_ErrorPersistsUntilStartClearOrReset : failed.state = .error ∧ failed.fault = none ∧
    failed.InputWritten ∧ (∃ t, step failed = .next t) ∧ failed.nextEvent.1 ≠ .reset ∧
    failed.nextEvent.1 ≠ .command 0x30000000 ∧ failed.nextEvent.1 ≠ .command 0x40000000 :=
  ⟨rfl, rfl, by decide, ⟨_, rfl⟩, by decide, by decide, by decide⟩

theorem witness_InvariantHoldsAfterReset : p16.Admitted := p16_admitted

theorem witness_EveryStepKeepsTheInvariant : (fresh .busy [1, 1, 0, 1] 4).Inv ∧
    ∃ t, step (fresh .busy [1, 1, 0, 1] 4) = .next t :=
  ⟨fresh_inv _ _ _ (.inr rfl) (by decide) (by decide), _, rfl⟩

theorem witness_ReachableStatesMeetTheSpecsInvariants : p16.Admitted ∧
    ∃ t, State.Reachable p16 t ∧ t.state = .busy :=
  ⟨p16_admitted, _, .step _ _ (.reset [.command 0x30000000]) rfl, rfl⟩

theorem witness_EveryCommandCanBeIssued : s0.fault = none ∧ (Instr.load 16777215 1).WellFormed := by decide

end Sys2Proof.Tests
end

section

namespace Sys2Proof.Machine

/-- Reset empties every buffer, so that no cell of IN_BUF, SYM_BUF or ENC_BUF is a written one (R34). -/
theorem State.resetWith_buffers_unwritten (p : Params) :
    (∀ i, (State.resetWith p).inBuf.read i = none) ∧ (∀ k, (State.resetWith p).symBuf.read k = none) ∧
      ∀ j, (State.resetWith p).encBuf.read j = none := by
  refine ⟨fun i => ?inBuf, fun k => ?symBuf, fun j => ?encBuf⟩
  case inBuf => rw [State.resetWith_inBuf, Memory.read_nil]
  case symBuf => rw [State.resetWith_symBuf, Memory.read_nil]
  case encBuf => rw [State.resetWith_encBuf, Memory.read_nil]

/-- Settles O43: each register by the law of `State.resetWith` for its field, the buffers by
`State.resetWith_buffers_unwritten`. -/
theorem resetLeavesTheStatedValues : Obligations.ResetLeavesTheStatedValues := by
  refine ⟨rfl, ?_⟩
  rintro p _ rfl
  obtain ⟨hin, hsym, henc⟩ := State.resetWith_buffers_unwritten p
  exact ⟨State.resetWith_state p, State.resetWith_errSym p, State.resetWith_inLen p, State.resetWith_symLen p,
    State.resetWith_encLen p, State.resetWith_k p, hin, hsym, henc,
    congrArg Params.codeTable (State.resetWith_params p), State.resetWith_fault p⟩

end Sys2Proof.Machine
end

section

namespace Sys2Proof.Machine

/-! ### Reads (R42, R117 to R123) -/

/-- The response word of a command whose only check is that of its range (R112, R118 to R120). -/
def rangeWord (ok : Prop) [Decidable ok] (data : BitVec 30) : Word :=
  if ok then responseWord .ok data else responseWord .nakRange 0

/-- The word a read command gets in state `s` (R117 to R123); 0 stands for the commands that are no reads. -/
def State.readWord (s : State) : Instr → Word
  | .rdstat => responseWord .ok s.statusData
  | .rdsym k => rangeWord (s.symIndex k) ((s.symCell k).setWidth 30)
  | .rdenc j => rangeWord (s.encIndex j) ((s.encCell j).setWidth 30)
  | .rdct v => rangeWord (tableIndex v) (tableData (s.params.codeTable.entry (BitVec.ofNat 4 v)))
  | .rdsymlen => responseWord .ok (BitVec.ofNat 30 s.symLen)
  | .rdenclen => responseWord .ok (BitVec.ofNat 30 s.encLen)
  | .rdinlen => responseWord .ok (BitVec.ofNat 30 s.inLen)
  | .load _ _ | .setlen _ | .start | .clear => 0

theorem State.inRange_respond (s : State) (ok : Prop) [Decidable ok] (data : BitVec 30) :
    s.inRange ok (s.respond .ok data) = { s with responses := s.responses ++ [rangeWord ok data] } := by
  by_cases h : ok
  · simp only [State.inRange, rangeWord, if_pos h, State.respond]
  · simp only [State.inRange, rangeWord, if_neg h, State.nak, State.respond]

/-- Everything a read does: it gives its word (R42). -/
theorem exec_of_isRead {i : Instr} (hi : IsRead i) (s : State) :
    exec i s = s.perform { s with responses := s.responses ++ [s.readWord i] } := by
  rcases hi with rfl | ⟨k, rfl⟩ | ⟨j, rfl⟩ | ⟨v, rfl⟩ | rfl | rfl | rfl
  case inr.inl | inr.inr.inl | inr.inr.inr.inl => exact congrArg s.perform (s.inRange_respond _ _)
  all_goals rfl

/-- The word of a read does not depend on the responses given before. -/
theorem State.readWord_with_responses (s : State) (i : Instr) (rs : List Word) :
    ({ s with responses := rs } : State).readWord i = s.readWord i := by
  cases i <;> rfl

/-! ### The input commands LOAD and SETLEN (R42, R113, R114) -/

theorem Memory.write_write_same {w : Nat} (m : Memory w) (a : Nat) (u v : BitVec w) :
    (m.write a u).write a v = m.write a v := by
  induction m with
  | nil => simp [Memory.write]
  | cons x m ih =>
    obtain ⟨c, y⟩ := x
    rcases Nat.lt_trichotomy a c with h | rfl | h
    · simp [Memory.write, h]
    · simp [Memory.write]
    · simp [Memory.write, Nat.not_lt_of_gt h, Nat.ne_of_gt h, ih]

/-- A command with the BUSY check, a range check `ok` on the configuration, and the effect `f` (R111, R112): the shape of
LOAD and SETLEN. -/
def State.inputCommand (ok : Params → Prop) [DecidablePred ok] (f : State → State) (s : State) : State :=
  s.unlessBusy (s.inRange (ok s.params) ((f s).respond .ok 0))

/-- The effect `f` touches nothing the checks of an input command look at, and after it has been performed and answered
it changes nothing more. -/
structure IdempotentEffect (f : State → State) : Prop where
  state : ∀ s, (f s).state = s.state
  params : ∀ s, (f s).params = s.params
  fault : ∀ s, (f s).fault = s.fault
  again : ∀ s, f ((f s).respond .ok 0) = (f s).respond .ok 0

theorem State.sameBlock_respond (s : State) (rc : ResponseCode) (data : BitVec 30) :
    s.SameBlock (s.respond rc data) := rfl

section
variable {s t : State} {ok : Params → Prop} [DecidablePred ok] {f : State → State}

theorem State.inputCommand_of_busy (hb : s.state = .busy) : s.inputCommand ok f = s.nak .nakBusy := if_pos hb

theorem State.inputCommand_of_outOfRange (hb : s.state ≠ .busy) (hr : ¬ok s.params) :
    s.inputCommand ok f = s.nak .nakRange := (if_neg hb).trans (if_neg hr)

theorem State.inputCommand_of_accepted (hb : s.state ≠ .busy) (hr : ok s.params) :
    s.inputCommand ok f = (f s).respond .ok 0 := (if_neg hb).trans (if_pos hr)

/-- The repeated command meets the same check as the first, so it is rejected again or its effect is done already. -/
theorem IdempotentEffect.repeat_sameBlock (hf : IdempotentEffect f) (h : s.perform (s.inputCommand ok f) = .next t) :
    ∃ u, t.perform (t.inputCommand ok f) = .next u ∧ t.SameBlock u := by
  obtain ⟨hs, rfl⟩ := State.perform_eq_next.mp h
  by_cases hb : s.state = .busy
  · have hb' : (s.nak .nakBusy).state = .busy := hb
    rw [State.inputCommand_of_busy hb, State.inputCommand_of_busy hb']
    exact ⟨_, State.perform_of_running hs, State.sameBlock_respond _ _ _⟩
  by_cases hr : ok s.params
  · have hb' : ((f s).respond .ok 0).state ≠ .busy := hf.state s ▸ hb
    have hr' : ok ((f s).respond .ok 0).params := (hf.params s).symm ▸ hr
    rw [State.inputCommand_of_accepted hb hr, State.inputCommand_of_accepted hb' hr', hf.again]
    exact ⟨_, State.perform_of_running ((hf.fault s).trans hs), State.sameBlock_respond _ _ _⟩
  · have hb' : (s.nak .nakRange).state ≠ .busy := hb
    have hr' : ¬ok (s.nak .nakRange).params := hr
    rw [State.inputCommand_of_outOfRange hb hr, State.inputCommand_of_outOfRange hb' hr']
    exact ⟨_, State.perform_of_running hs, State.sameBlock_respond _ _ _⟩

end

/-- The effect of LOAD (R113). -/
def State.loadCell (a : Nat) (b : Bit) (s : State) : State := { s with inBuf := s.inBuf.write a b }

/-- The effect of SETLEN (R114). -/
def State.setInLen (n : Nat) (s : State) : State := { s with inLen := n }

theorem exec_load_eq (a : Nat) (b : Bit) (s : State) :
    exec (.load a b) s = s.perform (s.inputCommand (fun p => a < p.nMax) (State.loadCell a b)) := rfl

theorem exec_setlen_eq (n : Nat) (s : State) :
    exec (.setlen n) s = s.perform (s.inputCommand (fun p => n ≤ p.nMax) (State.setInLen n)) := rfl

theorem State.loadCell_idempotentEffect (a : Nat) (b : Bit) : IdempotentEffect (State.loadCell a b) where
  state _ := rfl
  params _ := rfl
  fault _ := rfl
  again s := by simp only [State.loadCell, State.respond, Memory.write_write_same]

theorem State.setInLen_idempotentEffect (n : Nat) : IdempotentEffect (State.setInLen n) where
  state _ := rfl
  params _ := rfl
  fault _ := rfl
  again _ := rfl

/-- Settles O21: a read only gives its word, which does not depend on the responses (`exec_of_isRead`,
`State.readWord_with_responses`); LOAD and SETLEN are input commands with idempotent effects. -/
theorem readsHaveNoSideEffect : Obligations.ReadsHaveNoSideEffect := by
  refine ⟨fun s i hi hf => ⟨s.readWord i, ?once, ?twice⟩, ?inputs⟩
  case once => exact (exec_of_isRead hi s).trans (State.perform_of_running hf)
  case twice =>
    rw [exec_of_isRead hi, State.readWord_with_responses]
    exact State.perform_of_running hf
  case inputs =>
    rintro s t i (⟨a, b, rfl⟩ | ⟨n, rfl⟩) h
    · rw [exec_load_eq] at h ⊢
      exact (State.loadCell_idempotentEffect a b).repeat_sameBlock h
    · rw [exec_setlen_eq] at h ⊢
      exact (State.setInLen_idempotentEffect n).repeat_sameBlock h

end Sys2Proof.Machine
end

section

namespace Sys2Proof

/-! ### The fields of a word as numbers (R50) -/

theorem Fields.ofWord_opc_toNat (w : Word) : (Fields.ofWord w).opc.toNat = w.toNat / 2 ^ 28 := by
  have hw := w.isLt
  simp only [Fields.ofWord, BitVec.extractLsb'_toNat, Nat.shiftRight_eq_div_pow]
  omega

theorem Fields.ofWord_rsv_eq_zero_iff (w : Word) : (Fields.ofWord w).rsv = 0 ↔ w.toNat / 2 ^ 25 % 8 = 0 := by
  rw [← BitVec.toNat_inj]
  simp only [Fields.ofWord, BitVec.extractLsb'_toNat, Nat.shiftRight_eq_div_pow]
  rfl

theorem Fields.ofWord_d_eq_zero_iff (w : Word) : (Fields.ofWord w).d = 0 ↔ w.toNat / 2 ^ 24 % 2 = 0 := by
  rw [← BitVec.toNat_inj]
  simp only [Fields.ofWord, BitVec.extractLsb'_toNat, Nat.shiftRight_eq_div_pow]
  rfl

theorem Fields.ofWord_arg_eq_zero_iff (w : Word) : (Fields.ofWord w).arg = 0 ↔ w.toNat % 2 ^ 24 = 0 := by
  rw [← BitVec.toNat_inj]
  simp only [Fields.ofWord, BitVec.extractLsb'_toNat, Nat.shiftRight_zero]
  rfl

/-! ### Which fields are those of a command (R54) -/

theorem Fields.bareForm_of_zero (f : Fields) (i : Instr) (h : f.d = 0 ∧ f.arg = 0) : f.bareForm i = .ok i :=
  (if_pos h.1).trans (if_pos h.2)

theorem Fields.bareForm_of_nonzero (f : Fields) (i : Instr) (h : ¬(f.d = 0 ∧ f.arg = 0)) :
    ∃ r, f.bareForm i = .error r := by
  by_cases hd : f.d = 0
  · exact ⟨_, (if_pos hd).trans (if_neg fun ha => h ⟨hd, ha⟩)⟩
  · exact ⟨_, if_neg hd⟩

theorem Fields.argumentForm_legal_iff (f : Fields) (mk : Nat → Instr) :
    (∃ i, f.argumentForm mk = .ok i) ↔ f.d = 0 := by
  by_cases hd : f.d = 0
  · exact iff_of_true ⟨_, if_pos hd⟩ hd
  · refine iff_of_false (fun ⟨i, hi⟩ => ?_) hd
    rw [Fields.argumentForm, if_neg hd] at hi
    cases hi

theorem Fields.bareForm_legal_iff (f : Fields) (i : Instr) :
    (∃ j, f.bareForm i = .ok j) ↔ f.d = 0 ∧ f.arg = 0 := by
  by_cases h : f.d = 0 ∧ f.arg = 0
  · exact iff_of_true ⟨i, f.bareForm_of_zero i h⟩ h
  · refine iff_of_false (fun ⟨j, hj⟩ => ?_) h
    obtain ⟨r, hr⟩ := f.bareForm_of_nonzero i h
    rw [hr] at hj
    cases hj

/-- The conditions (a) to (d) of R54 on the fields. -/
theorem Fields.decode_legal_iff (f : Fields) :
    (∃ i, f.decode = .ok i) ↔
      (1 ≤ f.opc.toNat ∧ f.opc.toNat ≤ 0xB) ∧ f.rsv = 0 ∧ (f.opc.toNat = 1 ∨ f.d = 0) ∧
        (f.opc.toNat ∈ [3, 4, 5, 9, 0xA, 0xB] → f.arg = 0) := by
  by_cases hr : f.rsv = 0
  case neg =>
    refine iff_of_false (fun ⟨i, hi⟩ => ?_) fun ⟨_, hr', _⟩ => hr hr'
    rw [Fields.decode, if_neg hr] at hi
    cases hi
  rw [Fields.decode, if_pos hr]
  split
  case h_1 ho => simp [ho, hr]
  case h_12 =>
    refine iff_of_false (fun ⟨i, hi⟩ => nomatch hi) fun ⟨hopc, _⟩ => ?_
    simp only [imp_false] at *
    omega
  case h_2 ho | h_6 ho | h_7 ho | h_8 ho =>
    rw [Fields.argumentForm_legal_iff]
    simp [ho, hr]
  case h_3 ho | h_4 ho | h_5 ho | h_9 ho | h_10 ho | h_11 ho =>
    rw [Fields.bareForm_legal_iff]
    simp [ho, hr]

theorem decode_legal_iff (w : Word) :
    (∃ i, decode w = .ok i) ↔
      (1 ≤ w.toNat / 2 ^ 28 ∧ w.toNat / 2 ^ 28 ≤ 0xB) ∧ w.toNat / 2 ^ 25 % 8 = 0 ∧
        (w.toNat / 2 ^ 28 = 1 ∨ w.toNat / 2 ^ 24 % 2 = 0) ∧
        (w.toNat / 2 ^ 28 ∈ [3, 4, 5, 9, 0xA, 0xB] → w.toNat % 2 ^ 24 = 0) := by
  rw [← Fields.ofWord_opc_toNat, ← Fields.ofWord_rsv_eq_zero_iff, ← Fields.ofWord_d_eq_zero_iff,
    ← Fields.ofWord_arg_eq_zero_iff]
  exact Fields.decode_legal_iff _

/-! ### The rows of the opcode table on the fields (R51) -/

/-- A masked word has a row's fixed bits iff its fields have them. -/
theorem and_mask_eq_iff (w m p : Word) :
    w &&& m = p ↔
      (Fields.ofWord w).opc &&& (Fields.ofWord m).opc = (Fields.ofWord p).opc ∧
      (Fields.ofWord w).rsv &&& (Fields.ofWord m).rsv = (Fields.ofWord p).rsv ∧
      (Fields.ofWord w).d &&& (Fields.ofWord m).d = (Fields.ofWord p).d ∧
      (Fields.ofWord w).arg &&& (Fields.ofWord m).arg = (Fields.ofWord p).arg := by
  have hinj : w &&& m = p ↔ Fields.ofWord (w &&& m) = Fields.ofWord p :=
    ⟨congrArg Fields.ofWord, Fields.ofWord_injective⟩
  rw [hinj]
  simp only [Fields.ofWord, BitVec.extractLsb'_and, Fields.mk.injEq]

/-- A row of LOAD's shape: opcode and RSV are fixed. -/
theorem and_mask_load_iff (w : Word) (o : BitVec 4) :
    w &&& 0xFE000000 = Fields.word ⟨o, 0, 0, 0⟩ ↔ (Fields.ofWord w).opc = o ∧ (Fields.ofWord w).rsv = 0 := by
  rw [and_mask_eq_iff, Fields.ofWord_word, show Fields.ofWord 0xFE000000 = ⟨.allOnes 4, .allOnes 3, 0, 0⟩ from rfl]
  simp only [BitVec.and_allOnes]
  simp

/-- A row with an argument: D is fixed too. -/
theorem and_mask_argument_iff (w : Word) (o : BitVec 4) :
    w &&& 0xFF000000 = Fields.word ⟨o, 0, 0, 0⟩ ↔
      (Fields.ofWord w).opc = o ∧ (Fields.ofWord w).rsv = 0 ∧ (Fields.ofWord w).d = 0 := by
  rw [and_mask_eq_iff, Fields.ofWord_word,
    show Fields.ofWord 0xFF000000 = ⟨.allOnes 4, .allOnes 3, .allOnes 1, 0⟩ from rfl]
  simp only [BitVec.and_allOnes]
  simp

/-- A row without an argument: the whole word is fixed. -/
theorem and_mask_bare_iff (w : Word) (o : BitVec 4) :
    w &&& 0xFFFFFFFF = Fields.word ⟨o, 0, 0, 0⟩ ↔
      (Fields.ofWord w).opc = o ∧ (Fields.ofWord w).rsv = 0 ∧ (Fields.ofWord w).d = 0 ∧ (Fields.ofWord w).arg = 0 := by
  rw [and_mask_eq_iff, Fields.ofWord_word,
    show Fields.ofWord 0xFFFFFFFF = ⟨.allOnes 4, .allOnes 3, .allOnes 1, .allOnes 24⟩ from rfl]
  simp only [BitVec.and_allOnes]

/-- Every row fixes the opcode, to one of the map, and RSV, to 0. -/
theorem opcodeRows_fix_opc_rsv : ∀ r ∈ opcodeRows,
    (Fields.ofWord r.mask).opc = .allOnes 4 ∧ (Fields.ofWord r.mask).rsv = .allOnes 3 ∧
      (Fields.ofWord r.pattern).rsv = 0 ∧ 1 ≤ (Fields.ofWord r.pattern).opc.toNat ∧
      (Fields.ofWord r.pattern).opc.toNat ≤ 0xB := by
  decide

theorem opcodeRows_nodup : opcodeRows.Nodup := by decide

theorem opcodeRows_opc_injective : ∀ r ∈ opcodeRows, ∀ q ∈ opcodeRows,
    (Fields.ofWord r.pattern).opc = (Fields.ofWord q.pattern).opc → r = q := by
  decide

/-- What every selected row says of the word, whichever row it is. -/
theorem fields_of_row_selected {w : Word} {r : OpcodeRow} (hr : r ∈ opcodeRows) (h : w &&& r.mask = r.pattern) :
    (Fields.ofWord w).opc = (Fields.ofWord r.pattern).opc ∧ (Fields.ofWord w).rsv = 0 := by
  obtain ⟨hopc, hrsv, hzero, -⟩ := opcodeRows_fix_opc_rsv r hr
  obtain ⟨ho, hv, -⟩ := (and_mask_eq_iff _ _ _).mp h
  rw [hopc, BitVec.and_allOnes] at ho
  rw [hrsv, BitVec.and_allOnes, hzero] at hv
  exact ⟨ho, hv⟩

/-- A word with a reserved opcode or a bit of RSV set selects no row. -/
theorem selectedMnemonics_of_no_row {w : Word}
    (h : (Fields.ofWord w).rsv = 0 → ¬(1 ≤ (Fields.ofWord w).opc.toNat ∧ (Fields.ofWord w).opc.toNat ≤ 0xB)) :
    selectedMnemonics w = [] := by
  refine List.map_eq_nil_iff.mpr (List.filter_eq_nil_iff.mpr fun r hr hs => ?_)
  obtain ⟨ho, hv⟩ := fields_of_row_selected hr (of_decide_eq_true hs)
  obtain ⟨-, -, -, hmap⟩ := opcodeRows_fix_opc_rsv r hr
  exact h hv (ho ▸ hmap)

/-- The row with the word's opcode is the only one that the word can select. -/
theorem selectedMnemonics_of_opc {w : Word} {r : OpcodeRow} (hr : r ∈ opcodeRows)
    (ho : (Fields.ofWord w).opc = (Fields.ofWord r.pattern).opc) :
    selectedMnemonics w = if w &&& r.mask = r.pattern then [r.mnemonic] else [] := by
  have honly : ∀ q ∈ opcodeRows, w &&& q.mask = q.pattern → q = r := fun q hq h =>
    opcodeRows_opc_injective q hq r hr ((fields_of_row_selected hq h).1.symm.trans ho)
  split
  case isTrue h =>
    have hfilter : opcodeRows.filter (fun q => w &&& q.mask = q.pattern) = opcodeRows.filter (· == r) :=
      List.filter_congr fun q hq => by
        rw [Bool.eq_iff_iff, decide_eq_true_iff, beq_iff_eq]
        exact ⟨honly q hq, fun e => e ▸ h⟩
    rw [selectedMnemonics, hfilter, List.filter_beq, List.count_eq_one_of_mem opcodeRows_nodup hr]
    rfl
  case isFalse h =>
    refine List.map_eq_nil_iff.mpr (List.filter_eq_nil_iff.mpr fun q hq hs => ?_)
    have hq' := of_decide_eq_true hs
    exact h (honly q hq hq' ▸ hq')

/-! ### R59: the decoder and the rows agree -/

/-- The decoder's answer `a` and the mnemonics `ms` agree as R59 says: a command and its one mnemonic, or neither. -/
def OneRowOrIllegal (a : Except Reject Instr) (ms : List String) : Prop :=
  (∃ i, a = .ok i ∧ ms = [i.mnemonic]) ∨ (∃ r, a = .error r ∧ ms = [])

section
variable {w : Word} (hr : (Fields.ofWord w).rsv = 0)
include hr

theorem load_oneRow (ho : (Fields.ofWord w).opc.toNat = 1) (i : Nat) (b : Bit) :
    OneRowOrIllegal (.ok (.load i b)) (selectedMnemonics w) := by
  have ho' : (Fields.ofWord w).opc = 1 := BitVec.eq_of_toNat_eq ho
  have hrow : ⟨"LOAD", Fields.word ⟨1, 0, 0, 0⟩, 0xFE000000⟩ ∈ opcodeRows := by decide
  refine .inl ⟨_, rfl, ?_⟩
  rw [selectedMnemonics_of_opc hrow (by rw [Fields.ofWord_word, ho'])]
  exact if_pos ((and_mask_load_iff _ _).mpr ⟨ho', hr⟩)

/-- A command with an argument is legal, and its row selected, iff D = 0. -/
theorem argumentForm_oneRow (mk : Nat → Instr) (ho : (Fields.ofWord w).opc.toNat = (mk 0).opcode.toNat)
    (hm : ∀ n, (mk n).mnemonic = (mk 0).mnemonic)
    (hrow : ⟨(mk 0).mnemonic, Fields.word ⟨(mk 0).opcode, 0, 0, 0⟩, 0xFF000000⟩ ∈ opcodeRows) :
    OneRowOrIllegal ((Fields.ofWord w).argumentForm mk) (selectedMnemonics w) := by
  have ho' := BitVec.eq_of_toNat_eq ho
  rw [selectedMnemonics_of_opc hrow (by rw [Fields.ofWord_word, ho'])]
  by_cases hd : (Fields.ofWord w).d = 0
  · have hs := (and_mask_argument_iff w (mk 0).opcode).mpr ⟨ho', hr, hd⟩
    exact .inl ⟨_, if_pos hd, (if_pos hs).trans (congrArg ([·]) (hm _).symm)⟩
  · exact .inr ⟨_, if_neg hd, if_neg fun h => hd ((and_mask_argument_iff _ _).mp h).2.2⟩

/-- A command without an argument is legal, and its row selected, iff D = 0 and ARG = 0. -/
theorem bareForm_oneRow (i : Instr) (ho : (Fields.ofWord w).opc.toNat = i.opcode.toNat)
    (hrow : ⟨i.mnemonic, Fields.word ⟨i.opcode, 0, 0, 0⟩, 0xFFFFFFFF⟩ ∈ opcodeRows) :
    OneRowOrIllegal ((Fields.ofWord w).bareForm i) (selectedMnemonics w) := by
  have ho' := BitVec.eq_of_toNat_eq ho
  rw [selectedMnemonics_of_opc hrow (by rw [Fields.ofWord_word, ho'])]
  by_cases h : (Fields.ofWord w).d = 0 ∧ (Fields.ofWord w).arg = 0
  · exact .inl ⟨_, Fields.bareForm_of_zero _ i h, if_pos ((and_mask_bare_iff _ _).mpr ⟨ho', hr, h⟩)⟩
  · obtain ⟨r, he⟩ := Fields.bareForm_of_nonzero _ i h
    exact .inr ⟨r, he, if_neg fun hs => h ((and_mask_bare_iff _ _).mp hs).2.2⟩

end

theorem decode_oneRow (w : Word) : OneRowOrIllegal (decode w) (selectedMnemonics w) := by
  by_cases hr : (Fields.ofWord w).rsv = 0
  case neg => exact .inr ⟨_, if_neg hr, selectedMnemonics_of_no_row fun h => absurd h hr⟩
  rw [decode, Fields.decode, if_pos hr]
  split
  case h_1 ho => exact load_oneRow hr ho _ _
  case h_2 ho => exact argumentForm_oneRow hr .setlen ho (fun _ => rfl) (by decide)
  case h_3 ho => exact bareForm_oneRow hr .start ho (by decide)
  case h_4 ho => exact bareForm_oneRow hr .clear ho (by decide)
  case h_5 ho => exact bareForm_oneRow hr .rdstat ho (by decide)
  case h_6 ho => exact argumentForm_oneRow hr .rdsym ho (fun _ => rfl) (by decide)
  case h_7 ho => exact argumentForm_oneRow hr .rdenc ho (fun _ => rfl) (by decide)
  case h_8 ho => exact argumentForm_oneRow hr .rdct ho (fun _ => rfl) (by decide)
  case h_9 ho => exact bareForm_oneRow hr .rdsymlen ho (by decide)
  case h_10 ho => exact bareForm_oneRow hr .rdenclen ho (by decide)
  case h_11 ho => exact bareForm_oneRow hr .rdinlen ho (by decide)
  case h_12 =>
    refine .inr ⟨_, rfl, selectedMnemonics_of_no_row fun _ hmap => ?_⟩
    simp only [imp_false] at *
    omega

/-- Settles O4: `decode_oneRow`, by the cases of the decoder; the row with the word's opcode is the only one that it can
select (`selectedMnemonics_of_opc`), and the row's mask fixes what the decoder checks. -/
theorem legalWordSelectsExactlyOneRow : Obligations.LegalWordSelectsExactlyOneRow := decode_oneRow

end Sys2Proof
end

section

namespace Sys2Proof.Machine

/-! ### The Host step on a legal and on an illegal word (R109, R110) -/

theorem hostStep_of_legal {w : Word} {i : Instr} (h : decode w = .ok i) (s : State) : hostStep w s = exec i s := by
  rw [hostStep, h]

theorem hostStep_of_illegal {w : Word} {r : Reject} (h : decode w = .error r) (s : State) :
    hostStep w s = s.perform (s.nak .nakIllegal) := by
  rw [hostStep, h]
  rfl

theorem step_of_command {s : State} {w : Word} {es : List Event} (h : s.events = .command w :: es) :
    step s = hostStep w { s with events := es } := step_of_cons h

theorem decode_eq_error_of_not_legal {w : Word} (h : ∀ i, decode w ≠ .ok i) : ∃ r, decode w = .error r := by
  cases hd : decode w with
  | ok i => exact absurd hd (h i)
  | error r => exact ⟨r, rfl⟩

/-- Settles O7: legality by the cases of the decoder on the fields (`Fields.decode_legal_iff`), whose values are arithmetic
on the word; an illegal word is answered before STATE is looked at (`hostStep_of_illegal`). -/
theorem legalWordsAndTheNakOfAnIllegalOne : Obligations.LegalWordsAndTheNakOfAnIllegalOne := by
  refine ⟨decode_legal_iff, fun s w es he hf hill => ?_⟩
  obtain ⟨r, hr⟩ := decode_eq_error_of_not_legal hill
  rw [step_of_command he, hostStep_of_illegal hr]
  exact State.perform_of_running hf

/-! ### R55: one response word -/

/-- The word is no NAK that carries data (R55). -/
def NakHasNoData (r : Word) : Prop := r.extractLsb' 30 2 ≠ 0b00 → r.extractLsb' 0 30 = 0

theorem responseWord_zero_nakHasNoData (rc : ResponseCode) : NakHasNoData (responseWord rc 0) :=
  fun _ => responseWord_data rc 0

theorem responseWord_ok_nakHasNoData (data : BitVec 30) : NakHasNoData (responseWord .ok data) :=
  fun h => absurd (responseWord_rc .ok data) h

theorem rangeWord_nakHasNoData (ok : Prop) [Decidable ok] (data : BitVec 30) : NakHasNoData (rangeWord ok data) := by
  rw [rangeWord]
  split
  · exact responseWord_ok_nakHasNoData data
  · exact responseWord_zero_nakHasNoData .nakRange

theorem State.readWord_nakHasNoData (s : State) {i : Instr} (hi : IsRead i) : NakHasNoData (s.readWord i) := by
  rcases hi with rfl | ⟨k, rfl⟩ | ⟨j, rfl⟩ | ⟨v, rfl⟩ | rfl | rfl | rfl
  case inr.inl | inr.inr.inl | inr.inr.inr.inl => exact rangeWord_nakHasNoData _ _
  all_goals exact responseWord_ok_nakHasNoData _

/-- The commands that read nothing are those with a BUSY check, and CLEAR (R42, R111). -/
theorem isRead_iff (i : Instr) : IsRead i ↔ ¬(HasBusyCheck i ∨ i = .clear) := by
  cases i <;> simp [IsRead, HasBusyCheck]

theorem State.inputCommand_responses {ok : Params → Prop} [DecidablePred ok] {f : State → State} (s : State)
    (hf : (f s).responses = s.responses) :
    ∃ rc, (s.inputCommand ok f).responses = s.responses ++ [responseWord rc 0] := by
  by_cases hb : s.state = .busy
  · exact ⟨.nakBusy, by rw [State.inputCommand_of_busy hb, State.nak_responses]⟩
  by_cases hr : ok s.params
  · exact ⟨.ok, by rw [State.inputCommand_of_accepted hb hr, State.respond_responses, hf]⟩
  · exact ⟨.nakRange, by rw [State.inputCommand_of_outOfRange hb hr, State.nak_responses]⟩

/-- A command that reads nothing gets one response, with DATA = 0 (R55). -/
theorem exec_busyChecked_or_clear {s : State} {i : Instr} (hi : HasBusyCheck i ∨ i = .clear) (hf : s.fault = none)
    (hs : ¬s.StartFaults i) :
    ∃ t rc, exec i s = .next t ∧ t.responses = s.responses ++ [responseWord rc 0] := by
  rcases hi with (⟨a, b, rfl⟩ | ⟨n, rfl⟩ | rfl) | rfl
  · obtain ⟨rc, h⟩ := s.inputCommand_responses (ok := fun p => a < p.nMax) (f := State.loadCell a b) rfl
    exact ⟨_, rc, State.perform_of_running hf, h⟩
  · obtain ⟨rc, h⟩ := s.inputCommand_responses (ok := fun p => n ≤ p.nMax) (f := State.setInLen n) rfl
    exact ⟨_, rc, State.perform_of_running hf, h⟩
  · by_cases hb : s.state = .busy
    · exact ⟨_, .nakBusy, (State.perform_of_running hf).trans (congrArg _ (if_pos hb)), rfl⟩
    · have hw : s.InputWritten := not_not.mp fun h => hs ⟨rfl, hb, h⟩
      exact ⟨_, .ok, (State.perform_of_running hf).trans (congrArg _ ((if_neg hb).trans (if_pos hw))), rfl⟩
  · exact ⟨_, .ok, State.perform_of_running hf, rfl⟩

/-- Every command gets one response (R55), but for the START that meets the model fault (R135). -/
theorem exec_gives_one_response {s : State} {i : Instr} (hf : s.fault = none) (hs : ¬s.StartFaults i) :
    ∃ t r, exec i s = .next t ∧ t.responses = s.responses ++ [r] ∧ NakHasNoData r ∧
      (HasBusyCheck i ∨ i = .clear → r.extractLsb' 0 30 = 0) := by
  by_cases hi : HasBusyCheck i ∨ i = .clear
  · obtain ⟨t, rc, ht, hr⟩ := exec_busyChecked_or_clear hi hf hs
    exact ⟨t, _, ht, hr, responseWord_zero_nakHasNoData rc, fun _ => responseWord_data rc 0⟩
  · have hread := (isRead_iff i).mpr hi
    exact ⟨_, s.readWord i, (exec_of_isRead hread s).trans (State.perform_of_running hf), rfl,
      s.readWord_nakHasNoData hread, fun h => absurd h hi⟩

/-- Settles O11: an illegal word is NAKed; of the commands, a read gives `State.readWord` and every other one a response
with DATA = 0 (`exec_gives_one_response`). -/
theorem everyCommandWordGetsOneResponse : Obligations.EveryCommandWordGetsOneResponse := by
  intro s w es he hf hs
  rw [step_of_command he]
  cases hd : decode w with
  | ok i =>
    rw [hostStep_of_legal hd]
    obtain ⟨t, r, ht, hr, hnak, hzero⟩ := exec_gives_one_response (s := { s with events := es }) hf (hs i hd)
    refine ⟨t, r, ht, hr, hnak, fun j hj => ?_⟩
    cases hj
    exact hzero
  | error e =>
    rw [hostStep_of_illegal hd]
    exact ⟨_, _, State.perform_of_running hf, rfl, responseWord_zero_nakHasNoData .nakIllegal, fun _ hj => nomatch hj⟩

end Sys2Proof.Machine
end

section

namespace Sys2Proof

/-! ### `cdiv` (R9) is the library's ceiling division -/

section
variable {size : Nat} (hs : 0 < size) (n m : Nat)
include hs

theorem cdiv_le_iff : cdiv n size ≤ m ↔ n ≤ m * size := by
  rw [show cdiv n size = n ⌈/⌉ size from (Nat.ceilDiv_eq_add_pred_div n size).symm, ceilDiv_le_iff_le_smul hs,
    smul_eq_mul, Nat.mul_comm]

theorem div_le_cdiv_add (k : Nat) : n / size ≤ cdiv (n + k) size :=
  Nat.div_le_div_right (by omega)

/-- The groups hold the input and the padding of R65, and nothing else. -/
theorem cdiv_mul_eq_add_padding : cdiv n size * size = n + (size - n % size) % size := by
  have hn := Nat.div_add_mod' n size
  have hlt := Nat.mod_lt n hs
  have hsucc := Nat.add_one_mul (n / size) size
  rcases Nat.eq_zero_or_pos (n % size) with hr | hr
  · have hc : cdiv n size = n / size :=
      Nat.le_antisymm ((cdiv_le_iff hs n _).mpr (by omega)) (div_le_cdiv_add hs n 0)
    rw [hc, hr, Nat.sub_zero, Nat.mod_self]
    omega
  · have hc : cdiv n size = n / size + 1 := by
      refine Nat.le_antisymm ((cdiv_le_iff hs n _).mpr (by omega)) (Nat.lt_of_not_le fun h => ?_)
      have := (cdiv_le_iff hs n _).mp h
      omega
    rw [hc, Nat.mod_eq_of_lt (by omega : size - n % size < size)]
    omega

/-- Padding bits that become input bits need no further group (R70). -/
theorem cdiv_add_of_le_padding {k : Nat} (hk : k ≤ (size - n % size) % size) : cdiv (n + k) size = cdiv n size := by
  have hpad := cdiv_mul_eq_add_padding hs n
  refine Nat.le_antisymm ((cdiv_le_iff hs _ _).mpr (by omega)) ((cdiv_le_iff hs _ _).mpr ?_)
  have := (cdiv_le_iff hs (n + k) _).mp le_rfl
  omega

/-- The positions from the end of the input on are the last ones of the last group (R65). -/
theorem padding_position_iff {q t : Nat} (hq : q < cdiv n size) (ht : t < size) :
    n ≤ q * size + t ↔ q + 1 = cdiv n size ∧ size - (size - n % size) % size ≤ t := by
  have hpad := cdiv_mul_eq_add_padding hs n
  have hsucc := Nat.add_one_mul q size
  constructor
  · intro h
    have hlast : q + 1 = cdiv n size := Nat.le_antisymm hq ((cdiv_le_iff hs n _).mpr (by omega))
    rw [← hlast] at hpad
    exact ⟨hlast, by omega⟩
  · rintro ⟨hlast, h⟩
    rw [← hlast] at hpad
    omega

end

end Sys2Proof

namespace Sys2Proof.Machine

/-! ### The Chunker's groups (R63 to R66) -/

/-- `group(q)` of R63. -/
def group (bits : List Bit) (size q : Nat) : Vector Bit size :=
  Vector.ofFn fun t => paddedBit bits (q * size + t)

@[simp] theorem group_getElem (bits : List Bit) (size q t : Nat) (h : t < size) :
    (group bits size q)[t] = paddedBit bits (q * size + t) :=
  Vector.getElem_ofFn h

section
variable (bits : List Bit)

theorem paddedBit_of_lt {i : Nat} (h : i < bits.length) : some (paddedBit bits i) = bits[i]? := by
  rw [paddedBit, List.getD_eq_getElem _ _ h, List.getElem?_eq_getElem h]

theorem paddedBit_of_le {i : Nat} (h : bits.length ≤ i) : paddedBit bits i = 0 :=
  List.getD_eq_default _ _ h

variable (size : Nat) [NeZero size]

theorem chunk_eq_map_group : chunk bits size = (List.range (cdiv bits.length size)).map (group bits size) := rfl

@[simp] theorem chunk_length : (chunk bits size).length = cdiv bits.length size := by
  simp [chunk_eq_map_group]

/-- An empty input has no group of padding (R66). -/
@[simp] theorem chunk_nil : chunk ([] : List Bit) size = [] := by
  have h : cdiv 0 size = 0 := Nat.le_zero.mp ((cdiv_le_iff (NeZero.pos size) 0 0).mpr (Nat.zero_le _))
  rw [chunk_eq_map_group, List.length_nil, h, List.range_zero, List.map_nil]

theorem chunk_getElem?_eq_some_iff (q : Nat) (g : Vector Bit size) :
    (chunk bits size)[q]? = some g ↔ q < cdiv bits.length size ∧ group bits size q = g := by
  simp [chunk_eq_map_group, List.getElem?_eq_some_iff]

theorem chunk_take_of_le {m : Nat} (h : m ≤ cdiv bits.length size) :
    (chunk bits size).take m = (List.range m).map (group bits size) := by
  rw [chunk_eq_map_group, ← List.map_take, List.take_range, Nat.min_eq_left h]

end

/-- Settles O32: the groups by `chunk_getElem?_eq_some_iff`, their bits by the two cases of `paddedBit`, and the place of
the padding by `padding_position_iff`. -/
theorem chunkCountsAndPadding : Obligations.ChunkCountsAndPadding := by
  intro size _ bits
  refine ⟨chunk_length bits size, chunk_nil size, fun q t ht g hg => ?_⟩
  obtain ⟨hq, rfl⟩ := (chunk_getElem?_eq_some_iff bits size q g).mp hg
  rw [group_getElem]
  exact ⟨paddedBit_of_lt bits, paddedBit_of_le bits, padding_position_iff (NeZero.pos size) bits.length hq ht⟩

/-! ### The hardware nibble (R67, R68) -/

@[simp] theorem State.inputBits_length (s : State) : s.inputBits.length = s.inLen := by
  simp [State.inputBits]

theorem State.inputBits_getElem? (s : State) {i : Nat} (h : i < s.inLen) : s.inputBits[i]? = some (s.inCell i) := by
  rw [State.inputBits, List.getElem?_map, List.getElem?_range h, Option.map_some]

/-- A written cell holds what it was written with, and no free value. -/
theorem State.inBuf_read_of_written {s : State} {i : Nat} (h : s.inBuf.read i ≠ none) :
    s.inBuf.read i = some (s.inCell i) := by
  obtain ⟨b, hb⟩ := Option.ne_none_iff_exists'.mp h
  rw [State.inCell, hb, Option.getD_some]

/-- `inbit` of the hardware is `bit` of the contract, in the input and beyond it. -/
theorem State.paddedBit_inputBits (s : State) (i : Nat) : paddedBit s.inputBits i = s.inbit i := by
  rw [State.inbit]
  split
  · next h =>
    exact Option.some.inj
      ((paddedBit_of_lt _ (s.inputBits_length.symm ▸ h)).trans (s.inputBits_getElem? h))
  · next h => exact paddedBit_of_le _ (s.inputBits_length ▸ Nat.le_of_not_lt h)

theorem State.nibble_getElem (s : State) (k t : Nat) (h : t < 4) : (s.nibble k)[t] = s.inbit (4 * k + t) := by
  match t, h with
  | 0, _ | 1, _ | 2, _ | 3, _ => rfl

theorem State.group_inputBits (s : State) (k : Nat) : group s.inputBits 4 k = s.nibble k := by
  refine Vector.ext fun t ht => ?_
  rw [group_getElem, State.paddedBit_inputBits, State.nibble_getElem, Nat.mul_comm]

/-- Settles O33: the nibble is the group at its index (`State.group_inputBits`), and the input's cells are written ones. -/
theorem hardwareNibbleIsTheChunk : Obligations.HardwareNibbleIsTheChunk := by
  intro s hw
  refine ⟨s.inputBits_length, fun i hi => ?cell, fun k hk => ?nibble⟩
  case cell => rw [s.inputBits_getElem? hi, State.inBuf_read_of_written (hw i hi)]
  case nibble =>
    rw [chunk_getElem?_eq_some_iff, State.inputBits_length]
    exact ⟨hk, s.group_inputBits k⟩

/-! ### Padding stability (R70) -/

section
variable (bits : List Bit) (k : Nat)

/-- A zero after the input reads as the padding bit does. -/
theorem paddedBit_append_zeros (i : Nat) : paddedBit (bits ++ List.replicate k 0) i = paddedBit bits i := by
  rcases Nat.lt_or_ge i bits.length with h | h
  · exact List.getD_append _ _ _ _ h
  · rw [paddedBit_of_le bits h, paddedBit, List.getD_append_right _ _ _ _ h, List.getD_eq_getElem?_getD,
      List.getElem?_getD_replicate_default_eq]

theorem group_append_zeros (size : Nat) : group (bits ++ List.replicate k 0) size = group bits size := by
  funext q
  refine Vector.ext fun t ht => ?_
  rw [group_getElem, group_getElem, paddedBit_append_zeros]

variable (size : Nat) [NeZero size]

theorem chunk_append_zeros (hk : k ≤ (size - bits.length % size) % size) :
    chunk (bits ++ List.replicate k 0) size = chunk bits size := by
  rw [chunk_eq_map_group, chunk_eq_map_group, group_append_zeros, List.length_append, List.length_replicate,
    cdiv_add_of_le_padding (NeZero.pos size) _ hk]

theorem chunk_append_zeros_take :
    (chunk (bits ++ List.replicate k 0) size).take (bits.length / size) =
      (chunk bits size).take (bits.length / size) := by
  have hfull := div_le_cdiv_add (NeZero.pos size) bits.length
  rw [chunk_take_of_le bits size (hfull 0), chunk_take_of_le, group_append_zeros]
  rw [List.length_append, List.length_replicate]
  exact hfull k

end

/-- Settles O34: no group changes (`group_append_zeros`), and up to the padding count the number of groups does not
either (`cdiv_add_of_le_padding`). -/
theorem paddingIsStable : Obligations.PaddingIsStable :=
  fun bits k => ⟨chunk_append_zeros bits k 4, chunk_append_zeros_take bits k 4⟩

end Sys2Proof.Machine
end

section

namespace Sys2Proof.Machine

/-! ### The Symbol mapper (R71, R72, R74) -/

/-- The value as R71's sum: each bit appended on the right doubles the value of the bits before it. -/
theorem nibbleValue_toNat (n : Nibble) :
    (nibbleValue n).toNat = 8 * n[0].toNat + 4 * n[1].toNat + 2 * n[2].toNat + n[3].toNat := by
  rw [nibbleValue, BitVec.toNat_append, BitVec.toNat_append, BitVec.toNat_append]
  rw [← Nat.shiftLeft_add_eq_or_of_lt n[1].isLt, ← Nat.shiftLeft_add_eq_or_of_lt n[2].isLt,
    ← Nat.shiftLeft_add_eq_or_of_lt n[3].isLt]
  simp only [Nat.shiftLeft_eq]
  ring

/-- Bit `t` of the input order is bit `3 - t` of the value (R71). -/
@[simp] theorem nibbleValue_extractLsb' (n : Nibble) {t : Nat} (h : t < 4) :
    (nibbleValue n).extractLsb' (3 - t) 1 = n[t] := by
  have dropLast {w s : Nat} (x : BitVec w) (b : Bit) : (x ++ b).extractLsb' (s + 1) 1 = x.extractLsb' s 1 :=
    BitVec.extractLsb'_append_eq_of_le (Nat.le_add_left 1 s)
  match t, h with
  | 0, _ => exact (dropLast _ _).trans ((dropLast _ _).trans BitVec.extractLsb'_append_eq_left)
  | 1, _ => exact (dropLast _ _).trans ((dropLast _ _).trans BitVec.extractLsb'_append_eq_right)
  | 2, _ => exact (dropLast _ _).trans BitVec.extractLsb'_append_eq_right
  | 3, _ => exact BitVec.extractLsb'_append_eq_right

theorem nibbleOfSymbol_getElem (v : Symbol) {t : Nat} (h : t < 4) :
    (nibbleOfSymbol v)[t] = v.extractLsb' (3 - t) 1 := by
  match t, h with
  | 0, _ | 1, _ | 2, _ | 3, _ => rfl

@[simp] theorem nibbleOfSymbol_nibbleToSymbol (n : Nibble) : nibbleOfSymbol (nibbleToSymbol n) = n := by
  refine Vector.ext fun t ht => ?_
  rw [nibbleOfSymbol_getElem, nibbleToSymbol, nibbleValue_extractLsb' n ht]

/-- The four bits of a Symbol, appended from the highest down, are adjacent pieces of it. -/
@[simp] theorem nibbleToSymbol_nibbleOfSymbol (v : Symbol) : nibbleToSymbol (nibbleOfSymbol v) = v := by
  change v.extractLsb' 3 1 ++ v.extractLsb' 2 1 ++ v.extractLsb' 1 1 ++ v.extractLsb' 0 1 = v
  rw [BitVec.extractLsb'_append_extractLsb'_eq_extractLsb' (rfl : 3 = 2 + 1),
    BitVec.extractLsb'_append_extractLsb'_eq_extractLsb' (rfl : 2 = 1 + 1),
    BitVec.extractLsb'_append_extractLsb'_eq_extractLsb' (rfl : 1 = 0 + 1)]
  exact BitVec.extractLsb'_eq_self

/-- Settles O35: the sum by `nibbleValue_toNat`; the inverse takes the bits back out of the value in the same order
(`nibbleValue_extractLsb'`), and a Symbol is its four bits appended. -/
theorem nibbleValueIsABijection : Obligations.NibbleValueIsABijection :=
  ⟨nibbleValue_toNat, nibbleOfSymbol_nibbleToSymbol, nibbleToSymbol_nibbleOfSymbol⟩

end Sys2Proof.Machine
end

section

namespace Sys2Proof

/-! ### `cdiv` (R9) of a whole number of groups and a rest -/

section
variable {size : Nat} (hs : 0 < size) (m n : Nat)
include hs

theorem cdiv_mul : cdiv (m * size) size = m :=
  eq_of_forall_ge_iff fun k => (cdiv_le_iff hs _ k).trans (Nat.mul_le_mul_right_iff hs)

theorem cdiv_mul_add : cdiv (m * size + n) size = m + cdiv n size := by
  rw [cdiv, cdiv, show m * size + n + size - 1 = n + size - 1 + m * size by omega, Nat.add_mul_div_right _ _ hs,
    Nat.add_comm]

end

end Sys2Proof

namespace Sys2Proof.Machine

/-! ### The lookup of a sequence of Symbols (R84, R86) -/

section
variable {T : CodeTable} {v : Symbol} {vs ws : List Symbol}

theorem lookupAll_cons_of_absent (h : T.entry v = none) : lookupAll T (v :: vs) = .error ⟨v⟩ := by
  rw [lookupAll, lookup_of_absent h]

theorem lookupAll_cons_eq_ok_iff {c : Codeword} (h : T.entry v = some c) {codes : List Codeword} :
    lookupAll T (v :: vs) = .ok codes ↔ ∃ cs, lookupAll T vs = .ok cs ∧ c :: cs = codes := by
  rw [lookupAll, lookup_of_present h]
  cases lookupAll T vs <;> simp

theorem lookupAll_cons_eq_error_iff {c : Codeword} (h : T.entry v = some c) {e : UnknownSymbol} :
    lookupAll T (v :: vs) = .error e ↔ lookupAll T vs = .error e := by
  rw [lookupAll, lookup_of_present h]
  cases lookupAll T vs <;> simp

/-- The lookup succeeds when every Symbol is present, with their codewords in order. -/
theorem lookupAll_eq_ok_iff {codes : List Codeword} :
    lookupAll T vs = .ok codes ↔ vs.map T.entry = codes.map some := by
  induction vs generalizing codes with
  | nil => cases codes <;> simp [lookupAll]
  | cons v vs ih =>
    cases h : T.entry v with
    | none => cases codes <;> simp [lookupAll_cons_of_absent h, h]
    | some c => cases codes <;> simp [lookupAll_cons_eq_ok_iff h, ih, h, and_comm]

/-- The lookup fails with the first absent Symbol, and only with that one. -/
theorem lookupAll_eq_error_iff :
    lookupAll T vs = .error ⟨v⟩ ↔ vs.find? (fun u => T.entry u = none) = some v := by
  induction vs with
  | nil => simp [lookupAll]
  | cons u vs ih =>
    cases h : T.entry u with
    | none => simp [lookupAll_cons_of_absent h, h]
    | some c => simp [lookupAll_cons_eq_error_iff h, ih, h]

theorem lookupAll_append_eq_ok_iff {codes : List Codeword} :
    lookupAll T (vs ++ ws) = .ok codes ↔
      ∃ cs ds, codes = cs ++ ds ∧ lookupAll T vs = .ok cs ∧ lookupAll T ws = .ok ds := by
  rw [lookupAll_eq_ok_iff, List.map_append, List.append_eq_map_iff]
  simp only [lookupAll_eq_ok_iff, eq_comm (b := List.map T.entry _)]

theorem lookupAll_append_of_error (h : lookupAll T vs = .error ⟨v⟩) : lookupAll T (vs ++ ws) = .error ⟨v⟩ := by
  rw [lookupAll_eq_error_iff] at h ⊢
  rw [List.find?_append, h, Option.some_or]

end

/-! ### encode (R85, R86) -/

section
variable {T : CodeTable} {bits : List Bit}

theorem encodeBits_eq_ok_iff {out : EncodedOutput} :
    encodeBits T bits = .ok out ↔
      ∃ codes, lookupAll T (symbolsOf bits) = .ok codes ∧ out = ⟨symbolsOf bits, concatCodewords codes⟩ := by
  rw [encodeBits]
  cases lookupAll T (symbolsOf bits) <;> simp [eq_comm]

theorem encodeBits_eq_error_iff {e : UnknownSymbol} :
    encodeBits T bits = .error e ↔ lookupAll T (symbolsOf bits) = .error e := by
  rw [encodeBits]
  cases lookupAll T (symbolsOf bits) <;> simp

end

/-- `find?` as R86 puts it: a position that meets the test, and none before it does. -/
theorem find?_eq_some_iff_getElem? {α : Type} {p : α → Prop} [DecidablePred p] {xs : List α} {x : α} :
    xs.find? (fun y => p y) = some x ↔
      ∃ q : Nat, xs[q]? = some x ∧ p x ∧ ∀ r < q, ∀ y, xs[r]? = some y → ¬p y := by
  rw [List.find?_eq_some_iff_getElem]
  constructor
  · rintro ⟨hx, q, hq, rfl, hfirst⟩
    refine ⟨q, List.getElem?_eq_getElem hq, of_decide_eq_true hx, fun r hr y hy => ?_⟩
    obtain ⟨_, rfl⟩ := List.getElem?_eq_some_iff.mp hy
    simpa using hfirst r hr
  · rintro ⟨q, hx, hp, hfirst⟩
    obtain ⟨hq, hx⟩ := List.getElem?_eq_some_iff.mp hx
    refine ⟨decide_eq_true hp, q, hq, hx, fun r hr => ?_⟩
    simpa using hfirst r hr _ (List.getElem?_eq_getElem (hr.trans hq))

/-- Settles O38: encode fails and succeeds with the lookup of its Symbols, whose error is the first absent one
(`lookupAll_eq_error_iff`) and whose result is all their codewords (`lookupAll_eq_ok_iff`). -/
theorem encodeReportsTheFirstAbsentSymbol : Obligations.EncodeReportsTheFirstAbsentSymbol := by
  refine fun T bits => ⟨fun v => ?failure, fun out => ?success⟩
  case failure => rw [encodeBits_eq_error_iff, lookupAll_eq_error_iff, find?_eq_some_iff_getElem?]
  case success => simp only [encodeBits_eq_ok_iff, lookupAll_eq_ok_iff]

/-! ### The lengths of a result (R87, R89) -/

@[simp] theorem symbolsOf_length (bits : List Bit) : (symbolsOf bits).length = cdiv bits.length 4 := by
  rw [symbolsOf, List.length_map, chunk_length]

theorem symbolsOf_getElem? (bits : List Bit) (q : Nat) :
    (symbolsOf bits)[q]? = (chunk bits 4)[q]?.map nibbleValue := List.getElem?_map

@[simp] theorem concatCodewords_length (codes : List Codeword) :
    (concatCodewords codes).length = 5 * codes.length := by
  simp [concatCodewords, List.length_flatMap, Nat.mul_comm]

theorem lookupAll_length {T : CodeTable} {vs : List Symbol} {codes : List Codeword}
    (h : lookupAll T vs = .ok codes) : codes.length = vs.length := by
  simpa using (congrArg List.length (lookupAll_eq_ok_iff.mp h)).symm

/-- Settles O39: one Symbol per chunk, one codeword per Symbol (`lookupAll_length`), five bits per codeword. -/
theorem encodeLengthLaw : Obligations.EncodeLengthLaw := by
  intro T bits out h
  obtain ⟨codes, hcodes, rfl⟩ := encodeBits_eq_ok_iff.mp h
  refine ⟨symbolsOf_length bits, ?_, symbolsOf_getElem? bits⟩
  rw [concatCodewords_length, lookupAll_length hcodes]

/-! ### encode in two parts (R90) -/

theorem concatCodewords_append (cs ds : List Codeword) :
    concatCodewords (cs ++ ds) = concatCodewords cs ++ concatCodewords ds := List.flatMap_append

section
variable {B : List Bit} (C : List Bit) {m size : Nat} (hB : B.length = m * size)
include hB

theorem group_append_of_lt {q : Nat} (hq : q < m) : group (B ++ C) size q = group B size q := by
  refine Vector.ext fun t ht => ?_
  have hlt : q * size + t < B.length := by
    have := Nat.mul_le_mul_right size (Nat.succ_le_of_lt hq)
    rw [Nat.succ_mul] at this
    omega
  rw [group_getElem, group_getElem, paddedBit, paddedBit, List.getD_append _ _ _ _ hlt]

theorem group_append_add (q : Nat) : group (B ++ C) size (m + q) = group C size q := by
  refine Vector.ext fun t ht => ?_
  have hidx : (m + q) * size + t = B.length + (q * size + t) := by rw [hB, Nat.add_mul, Nat.add_assoc]
  rw [group_getElem, group_getElem, paddedBit, paddedBit, hidx,
    List.getD_append_right _ _ _ _ (Nat.le_add_right _ _), Nat.add_sub_cancel_left]

variable [NeZero size]

/-- After whole groups the rest starts a group of its own (R63). -/
theorem chunk_append : chunk (B ++ C) size = chunk B size ++ chunk C size := by
  have hs : 0 < size := NeZero.pos size
  rw [chunk_eq_map_group, chunk_eq_map_group, chunk_eq_map_group, List.length_append, hB, cdiv_mul_add hs, cdiv_mul hs,
    List.range_add, List.map_append, List.map_map]
  congr 1
  · exact List.map_congr_left fun q hq => group_append_of_lt C hB (List.mem_range.mp hq)
  · exact List.map_congr_left fun q _ => group_append_add C hB q

end

theorem symbolsOf_append {B : List Bit} (hB : B.length % 4 = 0) (C : List Bit) :
    symbolsOf (B ++ C) = symbolsOf B ++ symbolsOf C := by
  rw [symbolsOf, chunk_append C (Nat.div_mul_cancel (Nat.dvd_of_mod_eq_zero hB)).symm, List.map_append]
  rfl

/-- Settles O40: the chunks of the two parts are those of the whole (`chunk_append`), and the lookup and the concatenation
go through the first part's Symbols before the second's. -/
theorem encodePrefixDecomposition : Obligations.EncodePrefixDecomposition := by
  refine fun T B C hB => ⟨fun out => ?success, fun v h => ?failure⟩
  case success =>
    simp only [encodeBits_eq_ok_iff, symbolsOf_append hB, lookupAll_append_eq_ok_iff]
    constructor
    · rintro ⟨_, ⟨cs, ds, rfl, hcs, hds⟩, rfl⟩
      exact ⟨_, _, ⟨cs, hcs, rfl⟩, ⟨ds, hds, rfl⟩, by rw [concatCodewords_append]⟩
    · rintro ⟨_, _, ⟨cs, hcs, rfl⟩, ⟨ds, hds, rfl⟩, rfl⟩
      exact ⟨_, ⟨cs, ds, rfl, hcs, hds⟩, by rw [concatCodewords_append]⟩
  case failure =>
    rw [encodeBits_eq_error_iff] at h ⊢
    rw [symbolsOf_append hB]
    exact lookupAll_append_of_error h

/-! ### The configuration (R83) -/

theorem exec_params {i : Instr} {s t : State} (h : exec i s = .next t) : t.params = s.params := by
  obtain ⟨_, ⟨_, _, rfl⟩ | ⟨_, _, _, _, _, rfl⟩ | ⟨_, _, _, _, rfl⟩ | ⟨_, _, _, rfl⟩ | ⟨_, _, _, rfl⟩ | ⟨_, rfl⟩⟩ :=
    exec_cases h
  all_goals rfl

@[simp] theorem State.sequencerStep_params (s : State) : s.sequencerStep.params = s.params := by
  obtain ⟨_, _, _, h⟩ | ⟨_, _, h⟩ | ⟨_, h⟩ | ⟨_, h⟩ := s.sequencerStep_cases <;> rw [h]
  all_goals rfl

/-- Settles O45, by the cases of a step: each of them only updates other fields. -/
theorem configurationIsImmutable : Obligations.ConfigurationIsImmutable := by
  intro s t h
  obtain ⟨s', hs, hcases⟩ := step_cases h
  have hparams : s'.params = s.params := by rw [hs]
  rw [← hparams]
  obtain ⟨_, rfl⟩ | ⟨_, _, _, _, hexec⟩ | ⟨_, _, _, _, _, rfl⟩ | ⟨_, _, ⟨_, rfl⟩ | ⟨_, rfl⟩⟩ := hcases
  · exact s'.resetBlock_params
  · exact exec_params hexec
  · exact s'.nak_params _
  · exact s'.sequencerStep_params
  · rfl

end Sys2Proof.Machine
end

section

namespace Sys2Proof.Machine

/-! ### The bits of a codeword in emission order (R91, R92) -/

theorem cwbits_getElem? (c : Codeword) {t : Nat} (ht : t < 5) :
    (cwbits c)[t]? = some (c.extractLsb' (4 - t) 1) := by
  match t, ht with
  | 0, _ | 1, _ | 2, _ | 3, _ | 4, _ => rfl

/-- Settles O36: `place_read` at a cell of the chunk and at one outside it, and `place_wf`. -/
theorem placeWritesOneCodeword : Obligations.PlaceWritesOneCodeword := by
  refine fun m k c => ⟨fun t ht => ?written, fun j hj => ?frame, place_wf m k c⟩
  case written =>
    rw [place_read, if_pos ⟨Nat.le_add_right _ _, Nat.add_lt_add_left ht _⟩, Nat.add_sub_cancel_left,
      cwbits_getElem? c ht]
  case frame => rw [place_read, if_neg (by omega)]

/-! ### The position of each bit of the concatenation (R94) -/

theorem concatCodewords_cons (c : Codeword) (cs : List Codeword) :
    concatCodewords (c :: cs) = cwbits c ++ concatCodewords cs := List.flatMap_cons

/-- Output bit `j` is bit `j mod 5`, in emission order, of codeword `j div 5` (R94). -/
theorem concatCodewords_getElem? (codes : List Codeword) (j : Nat) :
    (concatCodewords codes)[j]? = codes[j / 5]?.map fun c => c.extractLsb' (4 - j % 5) 1 := by
  induction codes generalizing j with
  | nil => rfl
  | cons c cs ih =>
    rw [concatCodewords_cons]
    rcases Nat.lt_or_ge j 5 with hj | hj
    · rw [List.getElem?_append_left hj, cwbits_getElem? c hj, Nat.div_eq_of_lt hj, Nat.mod_eq_of_lt hj]
      rfl
    · obtain ⟨i, rfl⟩ := Nat.exists_eq_add_of_le' hj
      rw [List.getElem?_append_right hj, cwbits_length, Nat.add_sub_cancel, ih, Nat.add_div_right i (by decide),
        Nat.add_mod_right, List.getElem?_cons_succ]

/-- Settles O37: R93 by `concatCodewords_length`, R94 by `concatCodewords_getElem?`, R95 by `concatCodewords_append`. -/
theorem outputBitPositions : Obligations.OutputBitPositions := by
  refine ⟨concatCodewords_length, fun codes j c hc => ?position, concatCodewords_append⟩
  case position => rw [concatCodewords_getElem?, hc, Option.map_some]

end Sys2Proof.Machine
end

section

namespace Sys2Proof.Machine

/-! ### The Sequencer's turn (R97) -/

section
variable {s : State}

theorem sequencerTurn_of_enabled (hb : s.state = .busy) (hf : s.fault = none) :
    sequencerTurn s = .next s.sequencerStep :=
  (State.perform_of_running hf).trans (congrArg _ (if_pos ⟨hb, hf⟩))

theorem sequencerTurn_of_not_busy (hb : s.state ≠ .busy) (hf : s.fault = none) : sequencerTurn s = .next s :=
  (State.perform_of_running hf).trans (congrArg _ (if_neg fun h => hb h.1))

theorem sequencerTurn_of_faulted {f : Fault} (hf : s.fault = some f) : sequencerTurn s = .fault f :=
  State.perform_of_faulted hf

/-- The turn that an event gives the Sequencer, or the one it has when no event is to come. -/
theorem step_of_sequencer (h : s.nextEvent.1 = .sequencer) :
    step s = sequencerTurn { s with events := s.nextEvent.2 } := by
  rw [step, nextStep, h, performEvent]

/-- The step of the enabled Sequencer that the order names next. -/
theorem step_of_sequencer_enabled {es : List Event} (he : s.events = .sequencer :: es) (hb : s.state = .busy)
    (hf : s.fault = none) : step s = .next ({ s with events := es } : State).sequencerStep :=
  (step_of_cons he).trans (sequencerTurn_of_enabled hb hf)

end

/-- Settles O23: a turn of the disabled Sequencer is the state it meets, or the fault. -/
theorem disabledSequencerDoesNothing : Obligations.DisabledSequencerDoesNothing := by
  refine fun s he => ⟨fun hf hb => ?_, fun f hf => ?_⟩ <;> rw [step_of_sequencer he]
  · exact sequencerTurn_of_not_busy hb hf
  · exact sequencerTurn_of_faulted hf

/-! ### The three steps of the enabled Sequencer (R99 to R101) -/

section
variable {s : State}

theorem State.sequencerStep_of_present {c : Codeword} (hk : s.k < s.nch)
    (hc : s.params.codeTable.entry (nibbleToSymbol (s.nibble s.k)) = some c) :
    s.sequencerStep = s.encodeChunk (nibbleToSymbol (s.nibble s.k)) c :=
  (if_pos hk).trans (State.chunkStep_of_present hc)

theorem State.sequencerStep_of_absent (hk : s.k < s.nch)
    (hc : s.params.codeTable.entry (nibbleToSymbol (s.nibble s.k)) = none) :
    s.sequencerStep = s.raiseUnknownSymbol (nibbleToSymbol (s.nibble s.k)) :=
  (if_pos hk).trans (State.chunkStep_of_absent hc)

theorem State.sequencerStep_of_last (hk : s.k = s.nch) : s.sequencerStep = s.commit s.nch :=
  (if_neg hk.not_lt).trans (if_pos hk)

end

/-- Settles O24: the step is `State.encodeChunk`, whose one write of a Symbol reads back by the laws of `Memory.write` and
whose codeword is placed as O36 says. -/
theorem chunkStepStoresSymbolAndCodeword : Obligations.ChunkStepStoresSymbolAndCodeword := by
  intro s es c he hb hf hk hc
  obtain ⟨hplaced, hframe, _⟩ := placeWritesOneCodeword s.encBuf s.k c
  refine ⟨({ s with events := es } : State).encodeChunk (nibbleToSymbol (s.nibble s.k)) c, ?step, rfl,
    Memory.read_write_same _ _ _, fun q hq => Memory.read_write_ne _ _ _ _ hq, hplaced, hframe⟩
  case step => exact (step_of_sequencer_enabled he hb hf).trans (congrArg _ (State.sequencerStep_of_present hk hc))

/-- Settles O25: the step is `State.raiseUnknownSymbol`. -/
theorem chunkStepRaisesUnknownSymbol : Obligations.ChunkStepRaisesUnknownSymbol := fun _ _ he hb hf hk hc =>
  (step_of_sequencer_enabled he hb hf).trans (congrArg _ (State.sequencerStep_of_absent hk hc))

/-- Settles O26: the step is `State.commit`. -/
theorem commitStepMakesTheResultVisible : Obligations.CommitStepMakesTheResultVisible := fun _ _ he hb hf hk =>
  (step_of_sequencer_enabled he hb hf).trans (congrArg _ (State.sequencerStep_of_last hk))

/-! ### What a run leaves as it stood at START (R103) -/

/-- What no Sequencer step writes: its input, the configuration, FAULT and the two interface lists. -/
theorem State.sequencerStep_frame (s : State) :
    s.sequencerStep.inBuf = s.inBuf ∧ s.sequencerStep.inLen = s.inLen ∧ s.sequencerStep.params = s.params ∧
      s.sequencerStep.fault = s.fault ∧ s.sequencerStep.events = s.events ∧
      s.sequencerStep.responses = s.responses := by
  obtain ⟨_, _, _, h⟩ | ⟨_, _, h⟩ | ⟨_, h⟩ | ⟨_, h⟩ := s.sequencerStep_cases <;> rw [h]
  all_goals exact ⟨rfl, rfl, rfl, rfl, rfl, rfl⟩

theorem sequencerTurn_cases {s t : State} (h : sequencerTurn s = .next t) : t = s.sequencerStep ∨ t = s := by
  obtain ⟨hf, rfl⟩ := State.perform_eq_next.mp h
  by_cases hb : s.sequencerEnabled
  · exact .inl (if_pos hb)
  · exact .inr (if_neg hb)

/-- In BUSY every command but CLEAR only gives its response (R111). -/
theorem exec_of_busy {s t : State} {i : Instr} (hb : s.state = .busy) (hi : i ≠ .clear) (h : exec i s = .next t) :
    ∃ rc data, t = s.respond rc data := by
  obtain ⟨_, hresp | ⟨_, _, _, hn, _⟩ | ⟨_, _, hn, _⟩ | ⟨_, hn, _⟩ | ⟨_, hn, _⟩ | ⟨hclear, _⟩⟩ := exec_cases h
  case inl => exact hresp
  case inr.inr.inr.inr.inr => exact absurd hclear hi
  all_goals exact absurd hb hn

theorem hostStep_of_busy {s t : State} {w : Word} (hb : s.state = .busy) (hw : decode w ≠ .ok .clear)
    (h : hostStep w s = .next t) : ∃ rc data, t = s.respond rc data := by
  cases hd : decode w with
  | ok i =>
    rw [hostStep_of_legal hd] at h
    exact exec_of_busy hb (fun hi => hw (hi ▸ hd)) h
  | error r =>
    rw [hostStep_of_illegal hd] at h
    exact ⟨_, _, (State.perform_eq_next.mp h).2.symm⟩

/-- Settles O27: the Sequencer by `State.sequencerStep_frame`; a Host word in BUSY other than CLEAR only gives a response
(`hostStep_of_busy`). -/
theorem runReadsTheInputAsItStoodAtStart : Obligations.RunReadsTheInputAsItStoodAtStart := by
  refine ⟨fun s t es he h => ?sequencer, fun s t w es he hb h hw => ?host⟩
  case sequencer =>
    obtain ⟨hin, hlen, hparams, hfault, _, _⟩ := State.sequencerStep_frame { s with events := es }
    rw [step_of_cons he] at h
    obtain rfl | rfl := sequencerTurn_cases h
    · exact ⟨hin, hlen, hparams, hfault⟩
    · exact ⟨rfl, rfl, rfl, rfl⟩
  case host =>
    rw [step_of_command he] at h
    obtain ⟨rc, data, rfl⟩ := hostStep_of_busy (s := { s with events := es }) hb hw h
    exact ⟨rfl, rfl, rfl⟩

end Sys2Proof.Machine
end

section

namespace Sys2Proof.Machine

/-! ### A run from its end -/

theorem core_run_succ_eq_next {s t : State} {n : Nat} (h : Sys2Proof.core.run (n + 1) s = .next t) :
    ∃ u, step s = .next u ∧ Sys2Proof.core.run n u = .next t := by
  simp only [Host.Core.run] at h
  split at h
  · next u hu => exact ⟨u, hu, h⟩
  · cases h
  · cases h

/-- One more step after a run that answers a next state. -/
theorem core_run_snoc {s t u : State} {n : Nat} (h : Sys2Proof.core.run n s = .next t) (ht : step t = .next u) :
    Sys2Proof.core.run (n + 1) s = .next u := by
  induction n generalizing s with
  | zero =>
    cases h
    exact core_run_succ 0 ht
  | succ n ih =>
    obtain ⟨r, hr, hrest⟩ := core_run_succ_eq_next h
    rw [core_run_succ (n + 1) hr]
    exact ih hrest

/-! ### The codewords of encode, chunk by chunk (R85, R86) -/

theorem lookupAll_getElem? {T : CodeTable} {vs : List Symbol} {codes : List Codeword} (h : lookupAll T vs = .ok codes)
    {q : Nat} {v : Symbol} (hv : vs[q]? = some v) : ∃ c, codes[q]? = some c ∧ T.entry v = some c := by
  have hq : codes[q]?.map some = some (T.entry v) := by
    rw [← List.getElem?_map, ← lookupAll_eq_ok_iff.mp h, List.getElem?_map, hv, Option.map_some]
  obtain ⟨c, hc, he⟩ := Option.map_eq_some_iff.mp hq
  exact ⟨c, hc, he.symm⟩

/-- The Symbol of chunk `q` as the Sequencer computes it is that of encode (R68, R72). -/
theorem State.symbolsOf_inputBits_getElem? (s : State) {q : Nat} (hq : q < s.nch) :
    (symbolsOf s.inputBits)[q]? = some (nibbleToSymbol (s.nibble q)) := by
  have hchunk : (chunk s.inputBits 4)[q]? = some (s.nibble q) :=
    (chunk_getElem?_eq_some_iff _ _ _ _).mpr ⟨s.inputBits_length.symm ▸ hq, s.group_inputBits q⟩
  rw [symbolsOf_getElem?, hchunk]
  rfl

@[simp] theorem State.symbolsOf_inputBits_length (s : State) : (symbolsOf s.inputBits).length = s.nch := by
  rw [symbolsOf_length, State.inputBits_length, State.nch]

/-! ### The chunk step keeps the chunks encoded before it (R99) -/

section
variable {s : State} {v : Symbol} {c : Codeword}

theorem State.encodeChunk_symBuf_of_lt {q : Nat} (hq : q < s.k) :
    (s.encodeChunk v c).symBuf.read q = s.symBuf.read q :=
  Memory.read_write_ne _ _ _ _ hq.ne

theorem State.Coded.encodeChunk {q : Nat} (hq : q < s.k) (h : s.Coded q) : (s.encodeChunk v c).Coded q := by
  obtain ⟨u, d, hu, hd, hbits⟩ := h
  refine ⟨u, d, (State.encodeChunk_symBuf_of_lt hq).trans hu, hd, fun x hx => ?_⟩
  rw [State.encodeChunk_encBuf, place_read, if_neg (by omega)]
  exact hbits x hx

theorem State.encodeChunk_coded (hc : s.params.codeTable.entry v = some c) : (s.encodeChunk v c).Coded s.k := by
  refine ⟨v, c, Memory.read_write_same _ _ _, hc, fun x hx => ?_⟩
  rw [State.encodeChunk_encBuf, place_read, if_pos ⟨Nat.le_add_right _ _, Nat.add_lt_add_left hx _⟩,
    Nat.add_sub_cancel_left]

end

/-! ### The states of a run (R98 to R104) -/

/-- `t` is a state of the run that START began in `s`, with the first `n` chunks of the input encoded (R104). The interface
lists are left open, so that it is one of any interleaving. -/
structure State.RunAt (s t : State) (n : Nat) : Prop where
  busy : t.state = .busy
  fault : t.fault = none
  inBuf : t.inBuf = s.inBuf
  inLen : t.inLen = s.inLen
  params : t.params = s.params
  k : t.k = n
  errSym : t.errSym = 0
  symLen : t.symLen = 0
  encLen : t.encLen = 0
  symbols : ∀ q < n, t.symBuf.read q = some (nibbleToSymbol (s.nibble q))
  coded : ∀ q < n, t.Coded q

theorem State.runAt_of_start (s : State) (hf : s.fault = none) : s.RunAt ((s.discardRun .busy).respond .ok 0) 0 where
  busy := rfl
  fault := hf
  inBuf := rfl
  inLen := rfl
  params := rfl
  k := rfl
  errSym := rfl
  symLen := rfl
  encLen := rfl
  symbols _ hq := absurd hq (Nat.not_lt_zero _)
  coded _ hq := absurd hq (Nat.not_lt_zero _)

section
variable {s t : State} {n : Nat} (h : s.RunAt t n)
include h

theorem State.RunAt.nibble_eq (q : Nat) : t.nibble q = s.nibble q := by
  simp only [State.nibble, State.inbit, State.inCell, h.inBuf, h.inLen]

theorem State.RunAt.nch_eq : t.nch = s.nch := congrArg (cdiv · 4) h.inLen

theorem State.RunAt.entry_eq :
    t.params.codeTable.entry (nibbleToSymbol (t.nibble t.k)) =
      s.params.codeTable.entry (nibbleToSymbol (s.nibble n)) := by
  rw [h.params, h.k, h.nibble_eq]

theorem State.RunAt.k_lt_nch (hn : n < s.nch) : t.k < t.nch := by rwa [h.k, h.nch_eq]

/-- With no event to come the run goes on with the Sequencer's step (R102). -/
theorem State.RunAt.step_eq (he : t.events = []) : step t = .next t.sequencerStep :=
  (step_of_nil he).trans (sequencerTurn_of_enabled h.busy h.fault)

/-- The step of the chunk that is next, when its Symbol is present (R99). -/
theorem State.RunAt.sequencerStep_of_present (hn : n < s.nch)
    (hc : s.params.codeTable.entry (nibbleToSymbol (s.nibble n)) ≠ none) : s.RunAt t.sequencerStep (n + 1) := by
  obtain ⟨c, hc⟩ := Option.ne_none_iff_exists'.mp hc
  have hentry := h.entry_eq.trans hc
  have hsym : nibbleToSymbol (t.nibble t.k) = nibbleToSymbol (s.nibble n) := by rw [h.k, h.nibble_eq]
  rw [State.sequencerStep_of_present (h.k_lt_nch hn) hentry]
  exact
    { busy := h.busy, fault := h.fault, inBuf := h.inBuf, inLen := h.inLen, params := h.params
      k := congrArg (· + 1) h.k, errSym := h.errSym, symLen := h.symLen, encLen := h.encLen
      symbols := fun q hq => by
        rcases Nat.lt_succ_iff_lt_or_eq.mp hq with hq | rfl
        · exact (State.encodeChunk_symBuf_of_lt (h.k.symm ▸ hq)).trans (h.symbols q hq)
        · rw [hsym, State.encodeChunk_symBuf, h.k, Memory.read_write_same]
      coded := fun q hq => by
        rcases Nat.lt_succ_iff_lt_or_eq.mp hq with hq | rfl
        · exact (h.coded q hq).encodeChunk (h.k.symm ▸ hq)
        · exact h.k ▸ State.encodeChunk_coded hentry }

/-- The step of the chunk that is next, when its Symbol is absent (R100). -/
theorem State.RunAt.sequencerStep_of_absent (hn : n < s.nch)
    (hc : s.params.codeTable.entry (nibbleToSymbol (s.nibble n)) = none) :
    t.sequencerStep.Reports (nibbleToSymbol (s.nibble n)) := by
  rw [State.sequencerStep_of_absent (h.k_lt_nch hn) (h.entry_eq.trans hc), h.k, h.nibble_eq]
  exact ⟨⟨.inr rfl, h.fault⟩, rfl, rfl, h.symLen, h.encLen⟩

end

/-- Once every chunk is encoded, ENC_BUF holds the concatenated codewords (R94, R104). -/
theorem State.RunAt.encBuf_read {s t : State} (h : s.RunAt t s.nch) {codes : List Codeword}
    (hcodes : lookupAll s.params.codeTable (symbolsOf s.inputBits) = .ok codes) {j : Nat} (hj : j < 5 * s.nch) :
    t.encBuf.read j = (concatCodewords codes)[j]? := by
  have hq : j / 5 < s.nch := Nat.div_lt_of_lt_mul hj
  have hx : j % 5 < 5 := Nat.mod_lt j (by decide)
  obtain ⟨c, hc, hentry⟩ := lookupAll_getElem? hcodes (s.symbolsOf_inputBits_getElem? hq)
  obtain ⟨v, d, hv, hd, hbits⟩ := h.coded _ hq
  have hcd : c = d := by
    rw [h.symbols _ hq] at hv
    cases hv
    rw [h.params, hentry] at hd
    exact Option.some.inj hd
  rw [concatCodewords_getElem?, hc, Option.map_some, ← cwbits_getElem? c hx, hcd, ← hbits _ hx, Nat.div_add_mod]

/-- The commit step (R101) makes the result of encode visible. -/
theorem State.RunAt.sequencerStep_of_last {s t : State} (h : s.RunAt t s.nch) {out : EncodedOutput}
    (hout : encodeBits s.params.codeTable s.inputBits = .ok out) : t.sequencerStep.Holds out := by
  obtain ⟨codes, hcodes, rfl⟩ := encodeBits_eq_ok_iff.mp hout
  have hlen : (concatCodewords codes).length = 5 * s.nch := by
    rw [concatCodewords_length, lookupAll_length hcodes, State.symbolsOf_inputBits_length]
  rw [State.sequencerStep_of_last (h.k.trans h.nch_eq.symm), h.nch_eq]
  refine ⟨⟨.inl rfl, h.fault⟩, rfl, h.errSym, s.symbolsOf_inputBits_length.symm, hlen.symm,
    fun q hq => ?symbols, fun j hj => h.encBuf_read hcodes (hlen ▸ hj)⟩
  case symbols =>
    have hq : q < s.nch := s.symbolsOf_inputBits_length ▸ hq
    exact (h.symbols q hq).trans (s.symbolsOf_inputBits_getElem? hq).symm

/-! ### The run with the Sequencer alone to step (R105) -/

theorem execStart_of_written {s : State} (hf : s.fault = none) (hb : s.state ≠ .busy) (hw : s.InputWritten) :
    execStart s = .next ((s.discardRun .busy).respond .ok 0) :=
  (State.perform_of_running hf).trans (congrArg _ ((if_neg hb).trans (if_pos hw)))

/-- The step of a START that begins a run (R115). -/
theorem step_of_start {s : State} {es : List Event} (he : s.events = .command 0x30000000 :: es) (hf : s.fault = none)
    (hb : s.state ≠ .busy) (hw : s.InputWritten) :
    step s = .next ((State.discardRun { s with events := es } .busy).respond .ok 0) := by
  rw [step_of_command he, hostStep_of_legal (i := .start) rfl]
  exact execStart_of_written hf hb hw

section
variable {s : State} (hf : s.fault = none) (hb : s.state ≠ .busy) (hw : s.InputWritten) (he : s.events = [])
include hf hb hw he

/-- `n` Sequencer steps after START, all of them on present Symbols, the run has `n` chunks encoded and is still BUSY. -/
theorem core_run_start_runAt {n : Nat} (hn : n ≤ s.nch)
    (hpresent : ∀ q < n, s.params.codeTable.entry (nibbleToSymbol (s.nibble q)) ≠ none) :
    ∃ t, Sys2Proof.core.run (1 + n) (s.withFetchWord 32 0x30000000) = .next t ∧ s.RunAt t n ∧ t.events = [] := by
  induction n with
  | zero =>
    have hstart : step (s.withFetchWord 32 0x30000000) = .next ((s.discardRun .busy).respond .ok 0) :=
      step_of_start rfl hf hb hw
    exact ⟨_, core_run_succ 0 hstart, s.runAt_of_start hf, he⟩
  | succ n ih =>
    obtain ⟨t, hrun, hat, hev⟩ := ih (Nat.le_of_succ_le hn) fun q hq => hpresent q (Nat.lt_succ_of_lt hq)
    obtain ⟨_, _, _, _, hevents, _⟩ := t.sequencerStep_frame
    exact ⟨t.sequencerStep, core_run_snoc hrun (hat.step_eq hev),
      hat.sequencerStep_of_present hn (hpresent n (Nat.lt_succ_self n)), hevents.trans hev⟩

/-- What R105 says of a run whose first `n` Symbols are present: it is BUSY for `n` Sequencer steps, and one more ends it
with whatever `P` that step brings about. -/
theorem core_run_start_ends {n : Nat} (hn : n ≤ s.nch)
    (hpresent : ∀ q < n, s.params.codeTable.entry (nibbleToSymbol (s.nibble q)) ≠ none)
    {P : State → Prop} (hlast : ∀ t, s.RunAt t n → P t.sequencerStep) :
    (∀ m ≤ n, ∃ u, Sys2Proof.core.run (1 + m) (s.withFetchWord 32 0x30000000) = .next u ∧ u.state = .busy) ∧
      ∃ t, Sys2Proof.core.run (1 + (n + 1)) (s.withFetchWord 32 0x30000000) = .next t ∧ P t := by
  refine ⟨fun m hm => ?busy, ?ended⟩
  case busy =>
    obtain ⟨u, hrun, hat, _⟩ :=
      core_run_start_runAt hf hb hw he (hm.trans hn) fun q hq => hpresent q (hq.trans_le hm)
    exact ⟨u, hrun, hat.busy⟩
  case ended =>
    obtain ⟨t, hrun, hat, hev⟩ := core_run_start_runAt hf hb hw he hn hpresent
    exact ⟨_, core_run_snoc hrun (hat.step_eq hev), hlast t hat⟩

end

/-- Settles O30: START begins the run (`State.runAt_of_start`), each chunk step on a present Symbol takes it one chunk on,
and the last step is the commit of all NCH chunks, or the error at the first absent Symbol, which is encode's by O38. -/
theorem runComputesEncodeInTheStatedSteps : Obligations.RunComputesEncodeInTheStatedSteps := by
  refine fun s hf hb hw he => ⟨fun out hout => ?success, fun v hv => ?failure⟩
  case success =>
    obtain ⟨codes, hcodes, _⟩ := encodeBits_eq_ok_iff.mp hout
    refine core_run_start_ends hf hb hw he le_rfl (fun q hq => ?_) fun t hat => hat.sequencerStep_of_last hout
    obtain ⟨c, _, hc⟩ := lookupAll_getElem? hcodes (s.symbolsOf_inputBits_getElem? hq)
    exact Option.ne_none_iff_exists'.mpr ⟨c, hc⟩
  case failure =>
    obtain ⟨q, hqv, habsent, hfirst⟩ := ((encodeReportsTheFirstAbsentSymbol _ _).1 v).mp hv
    have hq : q < s.nch := s.symbolsOf_inputBits_length ▸ (List.getElem?_eq_some_iff.mp hqv).1
    obtain rfl : nibbleToSymbol (s.nibble q) = v :=
      Option.some.inj ((s.symbolsOf_inputBits_getElem? hq).symm.trans hqv)
    exact ⟨q, hq, hqv, core_run_start_ends hf hb hw he hq.le
      (fun p hp => hfirst p hp _ (s.symbolsOf_inputBits_getElem? (hp.trans hq)))
      fun t hat => hat.sequencerStep_of_absent hq habsent⟩

end Sys2Proof.Machine
end

section

namespace Sys2Proof.Machine

/-! ### The bounds of a visible result (R18, R24, R25) -/

theorem Params.sMax_le_of_admitted {p : Params} (h : p.Admitted) : p.sMax ≤ 2 ^ 20 :=
  (cdiv_le_iff (by decide) _ _).mpr h.2.1

theorem State.Inv.result_bounds {s : State} (h : s.Inv) (hd : s.state = .done) :
    s.symLen < 2 ^ 30 ∧ s.encLen < 2 ^ 30 := by
  obtain ⟨henc, hsym⟩ := h.result hd
  have hk := h.k_le
  have hmax := Params.sMax_le_of_admitted h.admitted
  omega

/-! ### The values of the read responses (R117 to R122) -/

/-- The status word's value: ERR_SYM above the two bits of STATE (R30). -/
theorem State.statusData_toNat (s : State) : s.statusData.toNat = 4 * s.errSym.toNat + s.state.code.toNat := by
  rw [State.statusData, BitVec.toNat_setWidth_of_le (by decide), BitVec.toNat_append,
    ← Nat.shiftLeft_add_eq_or_of_lt s.state.code.isLt, Nat.shiftLeft_eq, Nat.mul_comm]

theorem rangeWord_of_inRange {ok : Prop} [Decidable ok] (h : ok) (data : BitVec 30) :
    rangeWord ok data = responseWord .ok data := if_pos h

section
variable {s : State}

theorem State.readWord_rdstat_toNat :
    (s.readWord .rdstat).toNat = 4 * s.errSym.toNat + s.state.code.toNat :=
  (responseWord_ok_toNat _).trans s.statusData_toNat

theorem State.readWord_rdsymlen_toNat (h : s.symLen < 2 ^ 30) : (s.readWord .rdsymlen).toNat = s.symLen :=
  (responseWord_ok_toNat _).trans ((BitVec.toNat_ofNat _ _).trans (Nat.mod_eq_of_lt h))

theorem State.readWord_rdenclen_toNat (h : s.encLen < 2 ^ 30) : (s.readWord .rdenclen).toNat = s.encLen :=
  (responseWord_ok_toNat _).trans ((BitVec.toNat_ofNat _ _).trans (Nat.mod_eq_of_lt h))

theorem State.readWord_rdsym_toNat {q : Nat} {v : Symbol} (hq : q < s.symLen) (hv : s.symBuf.read q = some v) :
    (s.readWord (.rdsym q)).toNat = v.toNat := by
  rw [State.readWord, rangeWord_of_inRange hq, responseWord_ok_toNat, BitVec.toNat_setWidth_of_le (by decide),
    State.symCell, hv, Option.getD_some]

theorem State.readWord_rdenc_toNat {j : Nat} {b : Bit} (hj : j < s.encLen) (hb : s.encBuf.read j = some b) :
    (s.readWord (.rdenc j)).toNat = b.toNat := by
  rw [State.readWord, rangeWord_of_inRange hj, responseWord_ok_toNat, BitVec.toNat_setWidth_of_le (by decide),
    State.encCell, hb, Option.getD_some]

/-- A read gives one response, whose value is that of its word. -/
theorem exec_read_value {i : Instr} (hf : s.fault = none) {n : Nat} (h : (s.readWord i).toNat = n)
    (hi : IsRead i := by simp [IsRead]) :
    ∃ r : Word, exec i s = .next { s with responses := s.responses ++ [r] } ∧ r.toNat = n :=
  ⟨s.readWord i, (exec_of_isRead hi s).trans (State.perform_of_running hf), h⟩

end

/-! ### The end of a run (R106) -/

theorem State.runEnded_iff {s : State} (hf : s.fault = none) : s.RunEnded ↔ s.state = .done ∨ s.state = .error :=
  and_iff_left hf

theorem State.not_runEnded {s : State} (h : s.state = .busy ∨ s.fault ≠ none) : ¬s.RunEnded := by
  rintro ⟨hend, hf⟩
  rcases h with hb | hfault
  · rw [hb] at hend
    exact hend.elim nofun nofun
  · exact hfault hf

/-- Settles O55: each read's word by the `State.readWord_…_toNat` laws, at the registers and cells that `State.Holds` and
`State.Reports` fix; the lengths fit DATA by the invariant. -/
theorem endedRunIsReadByTheCommands : Obligations.EndedRunIsReadByTheCommands := by
  refine ⟨fun s => ⟨State.runEnded_iff, State.not_runEnded⟩, ?result, ?error⟩
  case result =>
    rintro s out hinv ⟨hend, hdone, herr, hsymLen, hencLen, hsym, henc⟩
    have hf : s.fault = none := hend.2
    obtain ⟨hsymBound, hencBound⟩ := hinv.result_bounds hdone
    refine ⟨hend, exec_read_value hf ?stat,
      exec_read_value hf ((State.readWord_rdsymlen_toNat hsymBound).trans hsymLen),
      exec_read_value hf ((State.readWord_rdenclen_toNat hencBound).trans hencLen),
      fun q v hv => exec_read_value hf ?sym,
      fun j b hb => exec_read_value hf ?enc⟩
    case stat =>
      rw [State.readWord_rdstat_toNat, herr, hdone]
      rfl
    case sym =>
      have hq : q < out.symbols.length := (List.getElem?_eq_some_iff.mp hv).1
      exact State.readWord_rdsym_toNat (hsymLen ▸ hq) ((hsym q hq).trans hv)
    case enc =>
      have hj : j < out.bits.length := (List.getElem?_eq_some_iff.mp hb).1
      exact State.readWord_rdenc_toNat (hencLen ▸ hj) ((henc j hj).trans hb)
  case error =>
    rintro s v ⟨hend, herror, herr, _, _⟩
    refine ⟨hend, exec_read_value hend.2 ?_⟩
    rw [State.readWord_rdstat_toNat, herr, herror]
    rfl

end Sys2Proof.Machine
end

section

namespace Sys2Proof.Machine

/-! ### The checks BUSY and RANGE (R111, R112) -/

section
variable {s : State}

theorem execStart_of_busy (hf : s.fault = none) (hb : s.state = .busy) : execStart s = .next (s.nak .nakBusy) :=
  (State.perform_of_running hf).trans (congrArg _ (if_pos hb))

theorem execStart_of_unwritten (hf : s.fault = none) (hb : s.state ≠ .busy) (hw : ¬s.InputWritten) :
    execStart s = .next (s.modelFault .unwrittenInput) :=
  (State.perform_of_running hf).trans (congrArg _ ((if_neg hb).trans (if_neg hw)))

theorem execClear_of_running (hf : s.fault = none) : execClear s = .next ((s.discardRun .idle).respond .ok 0) :=
  State.perform_of_running hf

theorem exec_read_of_running {i : Instr} (hf : s.fault = none) (hi : IsRead i := by simp [IsRead]) :
    exec i s = .next { s with responses := s.responses ++ [s.readWord i] } :=
  (exec_of_isRead hi s).trans (State.perform_of_running hf)

/-- `o` is the answer of an input command with the range check `ok` and the effect `s'`: one of the two NAKs, or the
effect and OK (R111, R112). -/
structure State.InputAnswer (s : State) (ok : Prop) (s' : State) (o : Host.Outcome State Fault Refusal) : Prop where
  busy : s.state = .busy → o = .next (s.nak .nakBusy)
  outOfRange : s.state ≠ .busy → ¬ok → o = .next (s.nak .nakRange)
  accepted : s.state ≠ .busy → ok → o = .next (s'.respond .ok 0)

theorem State.inputAnswer_inputCommand (hf : s.fault = none) (ok : Params → Prop) [DecidablePred ok]
    (f : State → State) : s.InputAnswer (ok s.params) (f s) (s.perform (s.inputCommand ok f)) := by
  rw [State.perform_of_running hf]
  exact
    { busy := fun hb => congrArg _ (State.inputCommand_of_busy hb)
      outOfRange := fun hb hr => congrArg _ (State.inputCommand_of_outOfRange hb hr)
      accepted := fun hb hr => congrArg _ (State.inputCommand_of_accepted hb hr) }

theorem exec_load_answer (hf : s.fault = none) (a : Nat) (b : Bit) :
    s.InputAnswer (a < s.params.nMax) (s.loadCell a b) (exec (.load a b) s) :=
  State.inputAnswer_inputCommand hf (fun p => a < p.nMax) (State.loadCell a b)

theorem exec_setlen_answer (hf : s.fault = none) (n : Nat) :
    s.InputAnswer (n ≤ s.params.nMax) (s.setInLen n) (exec (.setlen n) s) :=
  State.inputAnswer_inputCommand hf (fun p => n ≤ p.nMax) (State.setInLen n)

/-- The second check of a command (R111). -/
theorem exec_of_busyChecked {i : Instr} (hf : s.fault = none) (hi : HasBusyCheck i) (hb : s.state = .busy) :
    exec i s = .next (s.nak .nakBusy) := by
  rcases hi with ⟨a, b, rfl⟩ | ⟨n, rfl⟩ | rfl
  · exact (exec_load_answer hf a b).busy hb
  · exact (exec_setlen_answer hf n).busy hb
  · exact execStart_of_busy hf hb

/-- A read whose argument is out of range gets NAK RANGE (R112). -/
theorem exec_read_of_nakRange {i : Instr} (hf : s.fault = none) (h : s.readWord i = responseWord .nakRange 0)
    (hi : IsRead i := by simp [IsRead]) : exec i s = .next (s.nak .nakRange) := by
  rw [exec_read_of_running hf hi, h]
  rfl

/-- The third check of a command (R112). -/
theorem exec_of_outOfRange {i : Instr} (hf : s.fault = none) (hpass : ¬(HasBusyCheck i ∧ s.state = .busy))
    (hr : s.OutOfRange i) : exec i s = .next (s.nak .nakRange) := by
  rcases hr with ⟨a, b, rfl, ha⟩ | ⟨n, rfl, hn⟩ | ⟨k, rfl, hk⟩ | ⟨j, rfl, hj⟩ | ⟨v, rfl, hv⟩
  · have hb : s.state ≠ .busy := fun hb => hpass ⟨.inl ⟨a, b, rfl⟩, hb⟩
    exact (exec_load_answer hf a b).outOfRange hb ha.not_gt
  · have hb : s.state ≠ .busy := fun hb => hpass ⟨.inr (.inl ⟨n, rfl⟩), hb⟩
    exact (exec_setlen_answer hf n).outOfRange hb hn.not_ge
  · exact exec_read_of_nakRange hf (if_neg hk.not_gt)
  · exact exec_read_of_nakRange hf (if_neg hj.not_gt)
  · exact exec_read_of_nakRange hf (if_neg hv.not_gt)

theorem rangeWord_rc_ne_nakBusy (ok : Prop) [Decidable ok] (data : BitVec 30) :
    (rangeWord ok data).extractLsb' 30 2 ≠ ResponseCode.nakBusy.code := by
  rw [rangeWord]
  split <;> rw [responseWord_rc] <;> decide

/-- No read has a BUSY check (R111). -/
theorem State.readWord_rc_ne_nakBusy {i : Instr} (hi : IsRead i) :
    (s.readWord i).extractLsb' 30 2 ≠ ResponseCode.nakBusy.code := by
  have hok (data : BitVec 30) : (responseWord .ok data).extractLsb' 30 2 ≠ ResponseCode.nakBusy.code := by
    rw [responseWord_rc]
    decide
  rcases hi with rfl | ⟨k, rfl⟩ | ⟨j, rfl⟩ | ⟨v, rfl⟩ | rfl | rfl | rfl
  case inr.inl | inr.inr.inl | inr.inr.inr.inl => exact rangeWord_rc_ne_nakBusy _ _
  all_goals exact hok _

end

/-- Settles O8: the BUSY check by `exec_of_busyChecked`; CLEAR answers OK, and no read NAK BUSY
(`State.readWord_rc_ne_nakBusy`). -/
theorem busyRejectsInputAndStart : Obligations.BusyRejectsInputAndStart := by
  refine fun s i hf => ⟨exec_of_busyChecked hf, ?_⟩
  rintro (rfl | hread)
  · exact ⟨_, _, execClear_of_running hf, rfl, by decide⟩
  · exact ⟨_, _, exec_read_of_running hf hread, rfl, State.readWord_rc_ne_nakBusy hread⟩

/-! ### A NAK changes no state of the block (R112, R131) -/

/-- A response word whose code is not OK is a NAK (R56). -/
def IsNak (r : Word) : Prop := r.extractLsb' 30 2 ≠ 0b00

/-- A command that answers OK answers no NAK, whatever its effect `u`. -/
theorem State.not_isNak_of_respond_ok {s u : State} {data : BitVec 30} {r : Word} (hu : u.responses = s.responses)
    (h : (u.respond .ok data).responses = s.responses ++ [r]) : ¬IsNak r := by
  rw [State.respond_responses, hu, List.append_cancel_left_eq, List.singleton_inj] at h
  exact fun hr => hr (h ▸ responseWord_rc .ok data)

/-- A command whose one response is a NAK has no other effect. -/
theorem exec_sameBlock_of_nak {s t : State} {i : Instr} {r : Word} (h : exec i s = .next t)
    (ht : t.responses = s.responses ++ [r]) (hr : IsNak r) : s.SameBlock t := by
  obtain ⟨_, ⟨rc, data, rfl⟩ | ⟨a, b, _, _, _, rfl⟩ | ⟨n, _, _, _, rfl⟩ | ⟨_, _, _, rfl⟩ | ⟨_, _, _, rfl⟩ | ⟨_, rfl⟩⟩ :=
    exec_cases h
  case inl => exact s.sameBlock_respond rc data
  case inr.inr.inr.inr.inl => exact absurd ht (by simp)
  all_goals exact absurd hr (State.not_isNak_of_respond_ok rfl ht)

theorem hostStep_sameBlock_of_nak {s t : State} {w r : Word} (h : hostStep w s = .next t)
    (ht : t.responses = s.responses ++ [r]) (hr : IsNak r) : s.SameBlock t := by
  cases hd : decode w with
  | ok i =>
    rw [hostStep_of_legal hd] at h
    exact exec_sameBlock_of_nak h ht hr
  | error e =>
    rw [hostStep_of_illegal hd] at h
    obtain ⟨_, rfl⟩ := State.perform_eq_next.mp h
    exact s.sameBlock_respond .nakIllegal 0

/-- Settles O9: the RANGE check by `exec_of_outOfRange`, and the frame of a NAK by the cases of a command
(`exec_sameBlock_of_nak`): each effect comes with OK or with no response. -/
theorem outOfRangeArgumentGetsNakRange : Obligations.OutOfRangeArgumentGetsNakRange := by
  refine ⟨fun s i hf hpass hr => exec_of_outOfRange hf hpass hr, fun s t w r es he h ht hr => ?_⟩
  rw [step_of_command he] at h
  exact hostStep_sameBlock_of_nak (s := { s with events := es }) h ht hr

/-! ### LOAD, SETLEN, START and CLEAR (R113 to R116) -/

/-- Settles O12: LOAD is an input command whose effect is one write, which the laws of `Memory.write` read back. -/
theorem loadWritesOneInputBit : Obligations.LoadWritesOneInputBit := by
  intro s a b hf
  obtain ⟨hbusy, hrange, haccepted⟩ := exec_load_answer hf a b
  exact ⟨hbusy, fun hb ha => hrange hb ha.not_gt, fun hb ha =>
    ⟨_, haccepted hb ha, rfl, Memory.read_write_same _ _ _, fun i hi => Memory.read_write_ne _ _ _ _ hi⟩⟩

/-- Settles O13: SETLEN is an input command whose effect is on IN_LEN alone. -/
theorem setlenWritesTheInputLength : Obligations.SetlenWritesTheInputLength := by
  intro s n hf
  obtain ⟨hbusy, hrange, haccepted⟩ := exec_setlen_answer hf n
  exact ⟨hbusy, fun hb hn => hrange hb hn.not_ge, haccepted⟩

/-- Settles O14: the three answers of START, by its BUSY check and by whether the input is written. -/
theorem startBeginsARun : Obligations.StartBeginsARun := fun _ hf =>
  ⟨execStart_of_busy hf, execStart_of_written hf,
    fun hb ⟨i, hi, hnone⟩ => execStart_of_unwritten hf hb fun hw => hw i hi hnone⟩

/-- In IDLE there is no run and no result to discard (R28, R33). -/
theorem State.Inv.discardRun_idle {s : State} (h : s.Inv) (hi : s.state = .idle) : s.discardRun .idle = s := by
  obtain ⟨hsym, henc⟩ := h.noResult (by rw [hi]; decide)
  have hk := h.idleChunk hi
  have herr := h.noError (by rw [hi]; decide)
  cases s
  simp only at hi hsym henc hk herr
  subst hi hsym henc hk herr
  rfl

/-- Settles O15: CLEAR has no check (`execClear_of_running`), and in IDLE nothing to discard
(`State.Inv.discardRun_idle`). -/
theorem clearDiscardsRunAndResult : Obligations.ClearDiscardsRunAndResult := by
  refine fun s hf => ⟨execClear_of_running hf, fun h hi => ?_⟩
  have hclear := execClear_of_running hf
  rw [h.discardRun_idle hi] at hclear
  exact hclear

end Sys2Proof.Machine
end

section

namespace Sys2Proof.Machine

/-! ### What the invariant says of the readable cells (R33, R107) -/

section
variable {s : State} (h : s.Inv)
include h

theorem State.Inv.encLen_eq : s.encLen = 5 * s.symLen := by
  by_cases hd : s.state = .done
  · exact (h.result hd).1
  · rw [(h.noResult hd).1, (h.noResult hd).2]

theorem State.Inv.symLen_le_k : s.symLen ≤ s.k := by
  by_cases hd : s.state = .done
  · exact (h.result hd).2.le
  · exact (h.noResult hd).1.trans_le (Nat.zero_le _)

theorem State.Inv.lengths_lt : s.symLen < 2 ^ 30 ∧ s.encLen < 2 ^ 30 ∧ s.inLen < 2 ^ 30 := by
  have hsym := h.symLen_le_k
  have henc := h.encLen_eq
  have hin := h.inLen_le
  have hk := h.k_le
  obtain ⟨_, hn, _⟩ := h.admitted
  have hmax := Params.sMax_le_of_admitted h.admitted
  omega

/-- A readable Symbol's chunk stands encoded. -/
theorem State.Inv.coded_of_lt_symLen {q : Nat} (hq : q < s.symLen) : s.Coded q :=
  h.coded q (hq.trans_le h.symLen_le_k)

end

/-- Bit `j` of a coded chunk's five cells (R92). -/
theorem State.Coded.encBuf_read {s : State} {j : Nat} (h : s.Coded (j / 5)) :
    ∃ v c, s.symBuf.read (j / 5) = some v ∧ s.params.codeTable.entry v = some c ∧
      s.encBuf.read j = some (c.extractLsb' (4 - j % 5) 1) := by
  obtain ⟨v, c, hv, hc, hbits⟩ := h
  have hx : j % 5 < 5 := Nat.mod_lt j (by decide)
  have hj := hbits (j % 5) hx
  rw [Nat.div_add_mod, cwbits_getElem? c hx] at hj
  exact ⟨v, c, hv, hc, hj⟩

/-! ### The reads (R117 to R123) -/

section
variable {s : State}

theorem State.readWord_rdsym_of_inRange {k : Nat} (hk : k < s.symLen) :
    (s.readWord (.rdsym k)).toNat = (s.symCell k).toNat := by
  rw [State.readWord, rangeWord_of_inRange hk, responseWord_ok_toNat, BitVec.toNat_setWidth_of_le (by decide)]

theorem State.readWord_rdenc_of_inRange {j : Nat} (hj : j < s.encLen) :
    (s.readWord (.rdenc j)).toNat = (s.encCell j).toNat := by
  rw [State.readWord, rangeWord_of_inRange hj, responseWord_ok_toNat, BitVec.toNat_setWidth_of_le (by decide)]

theorem State.readWord_rdct_of_inRange {v : Nat} (hv : v < 16) :
    s.readWord (.rdct v) = responseWord .ok (tableData (s.params.codeTable.entry (BitVec.ofNat 4 v))) :=
  rangeWord_of_inRange hv _

theorem State.readWord_rdinlen_toNat (h : s.inLen < 2 ^ 30) : (s.readWord .rdinlen).toNat = s.inLen :=
  (responseWord_ok_toNat _).trans ((BitVec.toNat_ofNat _ _).trans (Nat.mod_eq_of_lt h))

theorem State.readWord_rdsymlen_of_empty (h : s.symLen = 0) : s.readWord .rdsymlen = 0x00000000 := by
  rw [State.readWord, h]
  rfl

/-- The presence bit stands above the five bits of the codeword (R57). -/
theorem tableData_some_toNat (c : Codeword) : (tableData (some c)).toNat = 32 + c.toNat := by
  rw [tableData, BitVec.toNat_setWidth_of_le (by decide), BitVec.toNat_append, ← Nat.shiftLeft_add_eq_or_of_lt c.isLt]
  rfl

theorem State.readWord_rdstat_of_busy (h : s.Inv) (hb : s.state = .busy) : (s.readWord .rdstat).toNat = 1 := by
  rw [State.readWord_rdstat_toNat, h.noError (by rw [hb]; decide), hb]
  rfl

end

/-- Settles O16: the word by `State.readWord_rdstat_toNat`, with the code of each STATE. -/
theorem rdstatReturnsTheStatusWord : Obligations.RdstatReturnsTheStatusWord := by
  refine fun s hf => ⟨_, exec_read_of_running hf, ?_, State.readWord_rdstat_of_busy⟩
  rw [State.readWord_rdstat_toNat]
  cases s.state <;> rfl

/-- Settles O17: the range check is `exec_of_outOfRange`; below SYM_LEN the word is the cell's value, and the cell is one
of a coded chunk. -/
theorem rdsymReturnsTheSymbol : Obligations.RdsymReturnsTheSymbol := by
  refine fun s k hf => ⟨fun hk => ?range, fun hk => ?symbol, fun h hd => ?outside⟩
  case range => exact exec_of_outOfRange hf (by simp [HasBusyCheck]) (by simpa [State.OutOfRange] using hk)
  case symbol =>
    refine ⟨_, exec_read_of_running hf, ?_, fun v hv => State.readWord_rdsym_toNat hk hv, fun h => ?_⟩
    · rw [State.readWord_rdsym_of_inRange hk]
      exact (s.symCell k).isLt
    · obtain ⟨v, _, hv, _⟩ := h.coded_of_lt_symLen hk
      exact Option.ne_none_iff_exists'.mpr ⟨v, hv⟩
  case outside => exact (h.noResult hd).1.trans_le (Nat.zero_le _)

/-- Settles O18: as O17, with the five cells of a coded chunk (`State.Coded.encBuf_read`); the chunk of a readable bit
is that of a readable Symbol, since ENC_LEN is five times SYM_LEN. -/
theorem rdencReturnsTheBit : Obligations.RdencReturnsTheBit := by
  refine fun s j hf => ⟨fun hj => ?range, fun hj => ?bit⟩
  case range => exact exec_of_outOfRange hf (by simp [HasBusyCheck]) (by simpa [State.OutOfRange] using hj)
  case bit =>
    refine ⟨_, exec_read_of_running hf, ?_, fun b hb => State.readWord_rdenc_toNat hj hb,
      fun h => (h.coded_of_lt_symLen (Nat.div_lt_of_lt_mul (h.encLen_eq ▸ hj))).encBuf_read⟩
    rw [State.readWord_rdenc_of_inRange hj]
    exact (s.encCell j).isLt

/-- Settles O19: the word is that of the entry (`State.readWord_rdct_of_inRange`), present or absent. -/
theorem rdctReturnsTheTableEntry : Obligations.RdctReturnsTheTableEntry := by
  intro s v hf
  have hread := exec_read_of_running (i := .rdct v) hf
  refine ⟨fun hv => ?range, fun c hv hc => ?present, fun hv hc => ?absent⟩
  case range => exact exec_of_outOfRange hf (by simp [HasBusyCheck]) (by simpa [State.OutOfRange] using hv)
  case present =>
    refine ⟨_, hread, ?_⟩
    rw [State.readWord_rdct_of_inRange hv, hc, responseWord_ok_toNat, tableData_some_toNat]
  case absent =>
    rw [hread, State.readWord_rdct_of_inRange hv, hc]
    rfl

/-! ### The empty input (R101, R121) -/

/-- START on the empty input and the Sequencer's turn after it, which is the commit step of no chunks. -/
theorem core_run_start_of_empty {s : State} {es : List Event} (hf : s.fault = none) (hb : s.state ≠ .busy)
    (hempty : s.inLen = 0) (he : s.events = .command 0x30000000 :: .sequencer :: es) :
    ∃ t, Sys2Proof.core.run 2 s = .next t ∧ t.state = .done ∧ t.symLen = 0 ∧ t.fault = none := by
  have hw : s.InputWritten := fun i hi => absurd (hempty ▸ hi) (Nat.not_lt_zero i)
  have hnch : cdiv s.inLen 4 = 0 := by rw [hempty]; rfl
  have hcommit := commitStepMakesTheResultVisible
    ((State.discardRun { s with events := .sequencer :: es } .busy).respond .ok 0) es rfl rfl hf hnch.symm
  exact ⟨_, (core_run_succ 1 (step_of_start he hf hb hw)).trans (core_run_succ 0 hcommit), rfl, hnch, hf⟩

/-- Settles O20: each word by its `State.readWord_…_toNat` law, the lengths fitting DATA by the invariant
(`State.Inv.lengths_lt`); the empty input by `core_run_start_of_empty`. -/
theorem lengthReadsReturnTheLengths : Obligations.LengthReadsReturnTheLengths := by
  intro s h hf
  obtain ⟨hsym, henc, hin⟩ := h.lengths_lt
  have hsymWord := State.readWord_rdsymlen_toNat hsym
  have hencWord := State.readWord_rdenclen_toNat henc
  refine ⟨⟨_, exec_read_of_running hf, hsymWord, fun hd => hsymWord.trans (h.noResult hd).1,
      fun es hb hempty he => ?empty⟩,
    ⟨_, exec_read_of_running hf, hencWord, hencWord.trans h.encLen_eq⟩,
    exec_read_value hf (State.readWord_rdinlen_toNat hin)⟩
  case empty =>
    obtain ⟨t, hrun, hdone, hzero, hfault⟩ := core_run_start_of_empty hf hb hempty he
    exact ⟨t, hrun, hdone, State.readWord_rdsymlen_of_empty hzero ▸ exec_read_of_running hfault⟩

/-! ### Every command can be issued (R109) -/

/-- Every arm of `exec` ends in `State.perform`, which only a model fault stops (R109, R135). -/
theorem exec_of_running {s : State} (hf : s.fault = none) (i : Instr) : ∃ t, exec i s = .next t := by
  cases i <;> exact ⟨_, State.perform_of_running hf⟩

theorem hostStep_of_running {s : State} (hf : s.fault = none) (w : Word) : ∃ t, hostStep w s = .next t := by
  cases hd : decode w with
  | ok i =>
    rw [hostStep_of_legal hd]
    exact exec_of_running hf i
  | error r =>
    rw [hostStep_of_illegal hd]
    exact ⟨_, State.perform_of_running hf⟩

/-- Settles O53: the issued word is the next event, and no Host step is refused (`hostStep_of_running`). -/
theorem everyCommandCanBeIssued : Obligations.EveryCommandCanBeIssued := by
  intro s i hf _
  rw [step_of_command (s.issue_events (encode i))]
  exact hostStep_of_running hf (encode i)

end Sys2Proof.Machine
end

section

namespace Sys2Proof.Machine

/-! ### The order of the checks (R132) -/

section
variable {s : State}

theorem State.not_outOfRange_load {a : Nat} {b : Bit} : ¬s.OutOfRange (.load a b) ↔ a < s.params.nMax := by
  simp [State.OutOfRange]

theorem State.not_outOfRange_setlen {n : Nat} : ¬s.OutOfRange (.setlen n) ↔ n ≤ s.params.nMax := by
  simp [State.OutOfRange]

theorem State.not_outOfRange_rdsym {k : Nat} : ¬s.OutOfRange (.rdsym k) ↔ s.symIndex k := by
  simp [State.OutOfRange]

theorem State.not_outOfRange_rdenc {j : Nat} : ¬s.OutOfRange (.rdenc j) ↔ s.encIndex j := by
  simp [State.OutOfRange]

theorem State.not_outOfRange_rdct {v : Nat} : ¬s.OutOfRange (.rdct v) ↔ tableIndex v := by
  simp [State.OutOfRange]

theorem rangeWord_rc_of_inRange {ok : Prop} [Decidable ok] (h : ok) (data : BitVec 30) :
    (rangeWord ok data).extractLsb' 30 2 = ResponseCode.ok.code := by
  rw [rangeWord_of_inRange h, responseWord_rc]

/-- The range check is the only one of a read (R42, R112). -/
theorem State.readWord_rc_of_inRange {i : Instr} (hi : IsRead i) (hr : ¬s.OutOfRange i) :
    (s.readWord i).extractLsb' 30 2 = ResponseCode.ok.code := by
  rcases hi with rfl | ⟨k, rfl⟩ | ⟨j, rfl⟩ | ⟨v, rfl⟩ | rfl | rfl | rfl
  case inr.inl => exact rangeWord_rc_of_inRange (State.not_outOfRange_rdsym.mp hr) _
  case inr.inr.inl => exact rangeWord_rc_of_inRange (State.not_outOfRange_rdenc.mp hr) _
  case inr.inr.inr.inl => exact rangeWord_rc_of_inRange (State.not_outOfRange_rdct.mp hr) _
  all_goals exact responseWord_rc .ok _

/-- A command of the BUSY check, or CLEAR, that passes its checks has its effect and answers OK (R113 to R116). -/
theorem exec_answers_ok {i : Instr} (hf : s.fault = none) (hi : HasBusyCheck i ∨ i = .clear)
    (hb : ¬(HasBusyCheck i ∧ s.state = .busy)) (hr : ¬s.OutOfRange i) (hs : ¬s.StartFaults i) :
    ∃ t, exec i s = .next t ∧ t.responses = s.responses ++ [responseWord .ok 0] := by
  rcases hi with hi | rfl
  case inr => exact ⟨_, execClear_of_running hf, rfl⟩
  have hidle : s.state ≠ .busy := fun h => hb ⟨hi, h⟩
  rcases hi with ⟨a, b, rfl⟩ | ⟨n, rfl⟩ | rfl
  · exact ⟨_, (exec_load_answer hf a b).accepted hidle (State.not_outOfRange_load.mp hr), rfl⟩
  · exact ⟨_, (exec_setlen_answer hf n).accepted hidle (State.not_outOfRange_setlen.mp hr), rfl⟩
  · exact ⟨_, execStart_of_written hf hidle (not_not.mp fun hw => hs ⟨rfl, hidle, hw⟩), rfl⟩

/-- A command that passes all three checks gets OK (R132), but for the START that meets the model fault. -/
theorem exec_of_checks_passed {i : Instr} (hf : s.fault = none) (hb : ¬(HasBusyCheck i ∧ s.state = .busy))
    (hr : ¬s.OutOfRange i) (hs : ¬s.StartFaults i) :
    ∃ t r, exec i s = .next t ∧ t.responses = s.responses ++ [r] ∧ r.extractLsb' 30 2 = ResponseCode.ok.code := by
  by_cases hi : HasBusyCheck i ∨ i = .clear
  · obtain ⟨t, ht, hresp⟩ := exec_answers_ok hf hi hb hr hs
    exact ⟨t, _, ht, hresp, responseWord_rc .ok 0⟩
  · have hread := (isRead_iff i).mpr hi
    exact ⟨_, _, exec_read_of_running hf hread, rfl, State.readWord_rc_of_inRange hread hr⟩

theorem exec_of_startFaults {i : Instr} (hf : s.fault = none) (hs : s.StartFaults i) :
    exec i s = .next (s.modelFault .unwrittenInput) := by
  obtain ⟨rfl, hb, hw⟩ := hs
  exact execStart_of_unwritten hf hb hw

end

/-- Settles O10: an illegal word is answered before anything else is looked at; of a command, the START that meets the
model fault is `exec_of_startFaults`, and the others go through the checks `exec_of_busyChecked`, `exec_of_outOfRange` and
`exec_of_checks_passed`, in this order. -/
theorem responseFollowsTheCheckOrder : Obligations.ResponseFollowsTheCheckOrder := by
  intro s w es he hf
  rw [step_of_command he]
  cases hd : decode w with
  | error e =>
    rw [hostStep_of_illegal hd]
    exact ⟨_, State.perform_of_running hf, .inl ⟨e, rfl, rfl⟩⟩
  | ok i =>
    rw [hostStep_of_legal hd]
    by_cases hs : s.StartFaults i
    · exact ⟨_, exec_of_startFaults hf hs, .inr ⟨i, rfl, .inr (.inr (.inr ⟨hs, rfl, rfl⟩))⟩⟩
    by_cases hb : HasBusyCheck i ∧ s.state = .busy
    · obtain ⟨hcheck, hbusy⟩ := hb
      exact ⟨_, exec_of_busyChecked hf hcheck hbusy, .inr ⟨i, rfl, .inl ⟨hcheck, hbusy, rfl⟩⟩⟩
    by_cases hr : s.OutOfRange i
    · exact ⟨_, exec_of_outOfRange hf hb hr, .inr ⟨i, rfl, .inr (.inl ⟨hb, hr, rfl⟩)⟩⟩
    · obtain ⟨t, r, ht, hresp, hok⟩ := exec_of_checks_passed (s := { s with events := es }) hf hb hr hs
      exact ⟨t, ht, .inr ⟨i, rfl, .inr (.inr (.inl ⟨hb, hr, hs, r, hresp, hok⟩))⟩⟩

end Sys2Proof.Machine
end

section

namespace Sys2Proof

/-! ### The word of START (R51, R59) -/

/-- The one row that a legal word selects is its command's. -/
theorem row_selected_of_decode {w : Word} {i : Instr} (h : decode w = .ok i) :
    ∃ r ∈ opcodeRows, r.mnemonic = i.mnemonic ∧ w &&& r.mask = r.pattern := by
  have hrow : selectedMnemonics w = [i.mnemonic] := by
    obtain ⟨j, hj, hrow⟩ | ⟨r, hr, _⟩ := decode_oneRow w
    · cases h.symm.trans hj
      exact hrow
    · cases h.symm.trans hr
  obtain ⟨r, hr, hm⟩ := List.mem_map.mp (hrow ▸ List.mem_singleton_self i.mnemonic)
  obtain ⟨hmem, hsel⟩ := List.mem_filter.mp hr
  exact ⟨r, hmem, hm, of_decide_eq_true hsel⟩

/-- START has a single word: its row fixes every bit. -/
theorem opcodeRows_start : ∀ r ∈ opcodeRows, r.mnemonic = Instr.start.mnemonic →
    r.mask = .allOnes 32 ∧ r.pattern = 0x30000000 := by
  decide

theorem word_of_decode_start {w : Word} (h : decode w = .ok .start) : w = 0x30000000 := by
  obtain ⟨r, hr, hm, hsel⟩ := row_selected_of_decode h
  obtain ⟨hmask, hpattern⟩ := opcodeRows_start r hr hm
  rwa [hmask, hpattern, BitVec.and_allOnes] at hsel

end Sys2Proof

namespace Sys2Proof.Machine

/-! ### What sets FAULT (R135) -/

section
variable {s t : State}

theorem State.not_inputWritten_iff : ¬s.InputWritten ↔ ∃ i < s.inLen, s.inBuf.read i = none := by
  simp [State.InputWritten]

theorem exec_fault {i : Instr} (h : exec i s = .next t) :
    t.fault = s.fault ∨ s.StartFaults i ∧ t.fault = some .unwrittenInput := by
  obtain ⟨_, ⟨_, _, rfl⟩ | ⟨_, _, _, _, _, rfl⟩ | ⟨_, _, _, _, rfl⟩ | ⟨_, _, _, rfl⟩ | ⟨hi, hb, hw, rfl⟩ | ⟨_, rfl⟩⟩ :=
    exec_cases h
  case inr.inr.inr.inr.inl => exact .inr ⟨⟨hi, hb, hw⟩, rfl⟩
  all_goals exact .inl rfl

/-- A step keeps FAULT, or it is the START that meets the model fault. -/
theorem step_fault (h : step s = .next t) :
    t.fault = s.fault ∨
      s.nextEvent.1 = .command 0x30000000 ∧ s.StartFaults .start ∧ t.fault = some .unwrittenInput := by
  obtain ⟨_, rfl, hcases⟩ := step_cases h
  obtain ⟨_, rfl⟩ | ⟨w, i, he, hd, hexec⟩ | ⟨_, _, _, _, _, rfl⟩ | ⟨_, _, ⟨_, rfl⟩ | ⟨_, rfl⟩⟩ := hcases
  case inr.inl =>
    refine (exec_fault hexec).imp_right fun ⟨hs, hfault⟩ => ?_
    obtain ⟨rfl, hb, hw⟩ := hs
    exact ⟨word_of_decode_start hd ▸ he, ⟨rfl, hb, hw⟩, hfault⟩
  case inr.inr.inr.inl =>
    obtain ⟨_, _, _, hfault, _⟩ := State.sequencerStep_frame { s with events := s.nextEvent.2 }
    exact .inl hfault
  all_goals exact .inl rfl

/-! ### A faulted model (R135, R143) -/

theorem hostStep_of_faulted {f : Fault} (hf : s.fault = some f) (w : Word) : hostStep w s = .fault f := by
  cases hd : decode w with
  | ok i =>
    rw [hostStep_of_legal hd]
    cases i <;> exact State.perform_of_faulted hf
  | error r =>
    rw [hostStep_of_illegal hd]
    exact State.perform_of_faulted hf

/-- Neither agent takes a step in a faulted model (R135). -/
theorem performEvent_of_faulted {f : Fault} (hf : s.fault = some f) {e : Event} (he : e ≠ .reset) :
    performEvent e s = .fault f := by
  cases e with
  | command w => exact hostStep_of_faulted hf w
  | sequencer => exact sequencerTurn_of_faulted hf
  | reset => exact absurd rfl he

theorem step_of_faulted {f : Fault} (hf : s.fault = some f) (he : s.nextEvent.1 ≠ .reset) : step s = .fault f :=
  performEvent_of_faulted (s := { s with events := s.nextEvent.2 }) hf he

end

/-- Settles O48: START on an unwritten input by `exec_of_startFaults`; that nothing else sets FAULT, and that no step, reset
included, clears it, by `step_fault`; that both agents stop by `step_of_faulted`. -/
theorem modelFaultIsFinal : Obligations.ModelFaultIsFinal := by
  refine ⟨fun s es he hf hb hw => ?sets, fun s f hf he => step_of_faulted hf he, fun s t f hf h => ?keeps,
    fun s t hf h ht => ?only⟩
  case sets =>
    rw [step_of_command he, hostStep_of_legal (i := .start) rfl]
    exact exec_of_startFaults hf ⟨rfl, hb, State.not_inputWritten_iff.mpr hw⟩
  case keeps =>
    obtain hkeep | ⟨hev, _⟩ := step_fault h
    · exact hkeep.trans hf
    · have hstop := step_of_faulted hf (by rw [hev]; decide)
      cases h.symm.trans hstop
  case only =>
    obtain hkeep | ⟨hev, ⟨_, hb, hw⟩, hset⟩ := step_fault h
    · exact absurd (hkeep.trans hf) ht
    · exact ⟨hev, hb, State.not_inputWritten_iff.mp hw, hset⟩

end Sys2Proof.Machine
end

section

namespace Sys2Proof.Machine

/-- The reset event asks nothing of STATE or FAULT: it takes place in a faulted model too (R143). -/
theorem step_of_reset {s : State} {es : List Event} (h : s.events = .reset :: es) :
    step s = .next (State.resetBlock { s with events := es }) := step_of_cons h

/-- No cell of IN_BUF is a written one after the reset event (R34). -/
theorem State.resetBlock_inBuf_unwritten (s : State) (i : Nat) : s.resetBlock.inBuf.read i = none :=
  (State.resetWith_buffers_unwritten s.params).1 i

/-- Settles O44: the step by `step_of_reset`, each register by the law of `State.resetBlock` for its field. -/
theorem resetEventPutsBackTheResetValues : Obligations.ResetEventPutsBackTheResetValues := by
  intro s es he
  let s' : State := { s with events := es }
  exact ⟨s'.resetBlock, step_of_reset he, s'.resetBlock_state, s'.resetBlock_errSym, s'.resetBlock_inLen,
    s'.resetBlock_symLen, s'.resetBlock_encLen, s'.resetBlock_k, s'.resetBlock_inBuf_unwritten,
    s'.resetBlock_params, s'.resetBlock_fault, s'.resetBlock_events, s'.resetBlock_responses⟩

end Sys2Proof.Machine
end

section

namespace Sys2Proof

/-! ### The decoder and the encoder are inverse (R50, R51, R54) -/

theorem Fields.argumentForm_eq_ok_iff {f : Fields} {mk : Nat → Instr} {i : Instr} :
    f.argumentForm mk = .ok i ↔ f.d = 0 ∧ mk f.arg.toNat = i := by
  rw [Fields.argumentForm]
  split
  case isTrue hd => rw [Except.ok.injEq, and_iff_right hd]
  case isFalse hd => exact iff_of_false nofun fun h => hd h.1

theorem Fields.bareForm_eq_ok_iff {f : Fields} {i j : Instr} :
    f.bareForm i = .ok j ↔ f.d = 0 ∧ f.arg = 0 ∧ i = j := by
  by_cases hz : f.d = 0 ∧ f.arg = 0
  · rw [f.bareForm_of_zero i hz, Except.ok.injEq, ← and_assoc, and_iff_right hz]
  · obtain ⟨r, hr⟩ := f.bareForm_of_nonzero i hz
    rw [hr]
    exact iff_of_false nofun fun ⟨hd, ha, _⟩ => hz ⟨hd, ha⟩

theorem Instr.fields_arg_toNat {i : Instr} (h : i.WellFormed) : i.fields.arg.toNat = i.argument :=
  (BitVec.toNat_ofNat _ _).trans (Nat.mod_eq_of_lt h)

/-- Fields are those of a well-formed command when each of the four agrees with it, ARG as a number. -/
theorem Instr.fields_eq_of_agree {i : Instr} {f : Fields} (ho : f.opc.toNat = i.opcode.toNat) (hr : f.rsv = 0)
    (hd : f.d = i.dataBit) (ha : f.arg.toNat = i.argument) : i.WellFormed ∧ i.fields = f := by
  have hw : i.WellFormed := ha.symm.trans_lt f.arg.isLt
  obtain ⟨opc, rsv, d, arg⟩ := f
  obtain rfl : opc = i.opcode := BitVec.eq_of_toNat_eq ho
  obtain rfl : arg = i.fields.arg := BitVec.eq_of_toNat_eq (ha.trans (fields_arg_toNat hw).symm)
  subst hr hd
  exact ⟨hw, rfl⟩

/-- The decoder on the fields of a well-formed command, by the command. -/
theorem Instr.decode_fields {i : Instr} (h : i.WellFormed) : i.fields.decode = .ok i := by
  have harg (mk : Nat → Instr) : (.ok (mk i.fields.arg.toNat) : Except Reject Instr) = .ok (mk i.argument) := by
    rw [fields_arg_toNat h]
  cases i with
  | load n b => exact harg (.load · b)
  | setlen n => exact harg .setlen
  | rdsym k => exact harg .rdsym
  | rdenc j => exact harg .rdenc
  | rdct v => exact harg .rdct
  | start | clear | rdstat | rdsymlen | rdenclen | rdinlen => rfl

/-- The decoder's cases each check the fields that the command does not carry. -/
theorem Fields.fields_of_decode {f : Fields} {i : Instr} (h : f.decode = .ok i) : i.WellFormed ∧ i.fields = f := by
  by_cases hr : f.rsv = 0
  case neg =>
    rw [Fields.decode, if_neg hr] at h
    cases h
  rw [Fields.decode, if_pos hr] at h
  split at h
  case h_1 ho =>
    cases h
    exact Instr.fields_eq_of_agree ho hr rfl rfl
  case h_12 => cases h
  case h_2 ho | h_6 ho | h_7 ho | h_8 ho =>
    obtain ⟨hd, rfl⟩ := Fields.argumentForm_eq_ok_iff.mp h
    exact Instr.fields_eq_of_agree ho hr hd rfl
  case h_3 ho | h_4 ho | h_5 ho | h_9 ho | h_10 ho | h_11 ho =>
    obtain ⟨hd, ha, rfl⟩ := Fields.bareForm_eq_ok_iff.mp h
    exact Instr.fields_eq_of_agree ho hr hd (congrArg BitVec.toNat ha)

/-- Settles O2: the fields come back out of the word (`decode_encode_eq`), and the decoder reads the command from them. -/
theorem decodingInvertsEncoding : Obligations.DecodingInvertsEncoding := fun i hi =>
  (decode_encode_eq i).trans (Instr.decode_fields hi)

/-- Settles O3: the command has exactly the fields of the word (`Fields.fields_of_decode`), which determine it. -/
theorem decodedCommandEncodesToItsWord : Obligations.DecodedCommandEncodesToItsWord := by
  intro w i h
  obtain ⟨hw, hfields⟩ := Fields.fields_of_decode h
  refine ⟨hw, ?_⟩
  rw [encode, hfields, Fields.word_ofWord]

theorem decode_eq_ok_iff {w : Word} {i : Instr} : decode w = .ok i ↔ i.WellFormed ∧ encode i = w :=
  ⟨decodedCommandEncodesToItsWord w i, fun ⟨hi, he⟩ => he ▸ decodingInvertsEncoding i hi⟩

/-- Settles O1: the legal words are those of their commands, which decode by O2; each of the others is rejected for the
part of R54 it breaks. -/
theorem specWordsDecodeAsTheirCommands : Obligations.SpecWordsDecodeAsTheirCommands :=
  ⟨decodingInvertsEncoding (.load 3 1) (by decide), decodingInvertsEncoding (.setlen 11) (by decide),
    decodingInvertsEncoding .start (by decide), decodingInvertsEncoding (.rdsym 2) (by decide),
    decodingInvertsEncoding (.rdct 15) (by decide), ⟨.reservedOpcode 0, rfl⟩, ⟨.reservedField 1, rfl⟩,
    ⟨.dataBit, rfl⟩, ⟨.argumentSet 1, rfl⟩⟩

theorem assemble_eq_some_iff {i : Instr} {w : Word} : assemble i = some w ↔ decode w = .ok i := by
  rw [decode_eq_ok_iff]
  simp [assemble]

end Sys2Proof

namespace Sys2Proof.Machine

/-! ### The assembler (R61) -/

theorem lineWord_load (n b : Nat) :
    lineWord "LOAD" [n, b] = if b < 2 then assemble (.load n (BitVec.ofNat 1 b)) else none := by rfl

theorem lineWord_mnemonic (i : Instr) : lineWord i.mnemonic (operandsOf i) = assemble i := by
  cases i with
  | load n b =>
    refine (lineWord_load n b.toNat).trans ?_
    rw [if_pos b.isLt, BitVec.ofNat_toNat, BitVec.setWidth_eq]
  | setlen _ | start | clear | rdstat | rdsym _ | rdenc _ | rdct _ | rdsymlen | rdenclen | rdinlen => rfl

theorem lineWord_dotWord (n : Nat) :
    lineWord ".word" [n] = if n < 2 ^ 32 then some (BitVec.ofNat 32 n) else none := by rfl

/-- A line other than `.word` with a word spells a command. -/
theorem exists_instr_of_lineWord {m : String} {ops : List Nat} {w : Word} (h : lineWord m ops = some w)
    (hm : m ≠ ".word") : ∃ i, m = i.mnemonic ∧ ops = operandsOf i ∧ assemble i = some w := by
  unfold lineWord at h
  split at h
  case h_1 n b =>
    split at h
    case isTrue hb =>
      have hops : (BitVec.ofNat 1 b).toNat = b := Nat.mod_eq_of_lt hb
      exact ⟨_, rfl, by rw [operandsOf, hops], h⟩
    case isFalse => cases h
  case h_12 => exact absurd rfl hm
  case h_13 => cases h
  all_goals exact ⟨_, rfl, rfl, h⟩

theorem lineWord_dotWord_eq_some_iff {n : Nat} {w : Word} : lineWord ".word" [n] = some w ↔ n = w.toNat := by
  rw [lineWord_dotWord]
  constructor
  · intro h
    obtain ⟨hn, h⟩ := Option.ite_none_right_eq_some.mp h
    cases h
    exact (Nat.mod_eq_of_lt hn).symm
  · rintro rfl
    rw [if_pos w.isLt, BitVec.ofNat_toNat, BitVec.setWidth_eq]

/-- Settles O5: each mnemonic has the one form of its command (`lineWord_mnemonic`, `exists_instr_of_lineWord`), whose word
decodes to it (`assemble_eq_some_iff`); `.word` takes the values of 32 bits. -/
theorem assemblerSpellsTheCommands : Obligations.AssemblerSpellsTheCommands := by
  refine ⟨lineWord_mnemonic, fun m ops w h hm => ?_, fun n w => lineWord_dotWord_eq_some_iff⟩
  obtain ⟨i, rfl, rfl, hi⟩ := exists_instr_of_lineWord h hm
  exact ⟨i, rfl, rfl, assemble_eq_some_iff.mp hi⟩

end Sys2Proof.Machine
end

section

namespace Sys2Proof.Machine

/-! ### The invariant after reset and after each effect (R33) -/

/-- No part of the invariant speaks of FAULT or of the interface lists. -/
theorem State.Inv.frame {s : State} (h : s.Inv) (f : Option Fault) (es : List Event) (rs : List Word) :
    State.Inv { s with fault := f, events := es, responses := rs } :=
  { h with }

theorem State.inv_resetWith {p : Params} (hp : p.Admitted) : (State.resetWith p).Inv where
  admitted := hp
  inWf := Memory.nil_wf
  symWf := Memory.nil_wf
  encWf := Memory.nil_wf
  inBound _ hi := absurd rfl hi
  symBound _ hk := absurd rfl hk
  encBound _ hj := absurd rfl hj
  inLen_le := Nat.zero_le _
  k_le := Nat.zero_le _
  noResult _ := ⟨rfl, rfl⟩
  result := nofun
  busyChunk := nofun
  noError _ := rfl
  idleChunk _ := rfl
  errorAbsent := nofun
  busyInput := nofun
  busySymbols := nofun
  coded _ hq := absurd hq (Nat.not_lt_zero _)

/-- Settles O50: reset empties the buffers and puts every register at 0, and `Config.params` is admitted. -/
theorem invariantHoldsAfterReset : Obligations.InvariantHoldsAfterReset :=
  ⟨State.inv_resetWith Config.params_admitted, fun _ es hp => (State.inv_resetWith hp).frame none es []⟩

section
variable {s t : State} (h : s.Inv)
include h

theorem State.Inv.resetBlock : s.resetBlock.Inv := (State.inv_resetWith h.admitted).frame _ _ _

theorem State.Inv.respond (rc : ResponseCode) (data : BitVec 30) : (s.respond rc data).Inv := h.frame _ _ _

/-- LOAD writes outside BUSY, where nothing is said of the input but its bounds. -/
theorem State.Inv.loadCell {a : Nat} (b : Bit) (hb : s.state ≠ .busy) (ha : a < s.params.nMax) :
    (s.loadCell a b).Inv :=
  { h with
    inWf := Memory.write_wf _ _ _ h.inWf
    inBound := fun i hi => by
      by_cases hia : i = a
      · exact hia ▸ ha
      · exact h.inBound i (Memory.read_write_ne _ _ _ b hia ▸ hi)
    busyInput := fun hbusy => absurd hbusy hb
    busySymbols := fun hbusy => absurd hbusy hb }

theorem State.Inv.setInLen {n : Nat} (hb : s.state ≠ .busy) (hn : n ≤ s.params.nMax) : (s.setInLen n).Inv :=
  { h with
    inLen_le := hn
    busyChunk := fun hbusy => absurd hbusy hb
    busyInput := fun hbusy => absurd hbusy hb
    busySymbols := fun hbusy => absurd hbusy hb }

/-- START and CLEAR put K, the result and the error at 0, so that only the input of a new run is left to say. -/
theorem State.Inv.discardRun {st : RunState} (hst : st = .idle ∨ st = .busy ∧ s.InputWritten) :
    (s.discardRun st).Inv :=
  { h with
    k_le := Nat.zero_le _
    noResult := fun _ => ⟨rfl, rfl⟩
    result := fun hd => by rcases hst with rfl | ⟨rfl, _⟩ <;> cases hd
    busyChunk := fun _ => Nat.zero_le _
    noError := fun _ => rfl
    idleChunk := fun _ => rfl
    errorAbsent := fun he => by rcases hst with rfl | ⟨rfl, _⟩ <;> cases he
    busyInput := fun hb => by
      rcases hst with rfl | ⟨_, hw⟩
      · cases hb
      · exact hw
    busySymbols := fun _ _ hq => absurd hq (Nat.not_lt_zero _)
    coded := fun _ hq => absurd hq (Nat.not_lt_zero _) }

/-- Every performed command keeps the invariant. -/
theorem State.Inv.exec {i : Instr} (ht : exec i s = .next t) : t.Inv := by
  obtain ⟨_, ⟨rc, data, rfl⟩ | ⟨a, b, _, hb, ha, rfl⟩ | ⟨n, _, hb, hn, rfl⟩ | ⟨_, _, hw, rfl⟩ | ⟨_, _, _, rfl⟩ |
    ⟨_, rfl⟩⟩ := exec_cases ht
  · exact h.respond rc data
  · exact (h.loadCell b hb ha).respond .ok 0
  · exact (h.setInLen hb hn).respond .ok 0
  · exact (h.discardRun (.inr ⟨rfl, hw⟩)).respond .ok 0
  · exact h.frame _ _ _
  · exact (h.discardRun (.inl rfl)).respond .ok 0

/-! ### The invariant along a run (R99 to R101) -/

theorem State.Inv.nch_le_sMax : s.nch ≤ s.params.sMax := Nat.div_le_div_right (by have := h.inLen_le; omega)

/-- A chunk step writes chunk K only, and counts it (R99). -/
theorem State.Inv.encodeChunk {c : Codeword} (hb : s.state = .busy) (hk : s.k < s.nch)
    (hc : s.params.codeTable.entry (nibbleToSymbol (s.nibble s.k)) = some c) :
    (s.encodeChunk (nibbleToSymbol (s.nibble s.k)) c).Inv :=
  have hmax : s.k < s.params.sMax := hk.trans_le h.nch_le_sMax
  { h with
    symWf := Memory.write_wf _ _ _ h.symWf
    encWf := place_wf _ _ _ h.encWf
    symBound := fun q hq => by
      by_cases hqk : q = s.k
      · exact hqk ▸ hmax
      · exact h.symBound q (Memory.read_write_ne _ _ _ _ hqk ▸ hq)
    encBound := fun j hj => by
      by_cases hjk : 5 * s.k ≤ j ∧ j < 5 * s.k + 5
      · change j < 5 * s.params.sMax
        omega
      · rw [State.encodeChunk_encBuf, place_read, if_neg hjk] at hj
        exact h.encBound j hj
    k_le := hmax
    result := fun hd => nomatch hb.symm.trans hd
    busyChunk := fun _ => hk
    idleChunk := fun hi => nomatch hb.symm.trans hi
    busySymbols := fun _ q hq => by
      rcases Nat.lt_succ_iff_lt_or_eq.mp hq with hq | rfl
      · exact (State.encodeChunk_symBuf_of_lt hq).trans (h.busySymbols hb q hq)
      · exact Memory.read_write_same _ _ _
    coded := fun q hq => by
      rcases Nat.lt_succ_iff_lt_or_eq.mp hq with hq | rfl
      · exact (h.coded q hq).encodeChunk hq
      · exact State.encodeChunk_coded hc }

/-- Entering ERROR leaves the buffers and K, of which the invariant says no more there than in BUSY (R100). -/
theorem State.Inv.raiseUnknownSymbol {v : Symbol} (hb : s.state = .busy) (hv : s.params.codeTable.entry v = none) :
    (s.raiseUnknownSymbol v).Inv :=
  { h with
    noResult := fun _ => h.noResult (by rw [hb]; decide)
    result := nofun
    busyChunk := nofun
    noError := fun he => absurd rfl he
    idleChunk := nofun
    errorAbsent := fun _ => hv
    busyInput := nofun
    busySymbols := nofun }

/-- The commit makes the chunks that K counts the result (R101). -/
theorem State.Inv.commit (hb : s.state = .busy) (hk : s.k = s.nch) : (s.commit s.nch).Inv :=
  { h with
    noResult := fun hd => absurd rfl hd
    result := fun _ => ⟨rfl, hk.symm⟩
    busyChunk := nofun
    noError := fun _ => h.noError (by rw [hb]; decide)
    idleChunk := nofun
    errorAbsent := nofun
    busyInput := nofun
    busySymbols := nofun }

theorem State.Inv.sequencerStep (hb : s.state = .busy) : s.sequencerStep.Inv := by
  obtain ⟨c, hk, hc, he⟩ | ⟨hk, hc, he⟩ | ⟨hk, he⟩ | ⟨_, he⟩ := s.sequencerStep_cases <;> rw [he]
  · exact h.encodeChunk hb hk hc
  · exact h.raiseUnknownSymbol hb hc
  · exact h.commit hb hk
  · exact h

end

/-- Settles O51: by the cases of a step, each of whose effects keeps the invariant. -/
theorem everyStepKeepsTheInvariant : Obligations.EveryStepKeepsTheInvariant := by
  intro s t h hstep
  obtain ⟨s', rfl, hcases⟩ := step_cases hstep
  have h' : State.Inv { s with events := s.nextEvent.2 } := h.frame _ _ _
  obtain ⟨_, rfl⟩ | ⟨_, _, _, _, hexec⟩ | ⟨_, _, _, _, _, rfl⟩ | ⟨_, _, ⟨hb, rfl⟩ | ⟨_, rfl⟩⟩ := hcases
  · exact h'.resetBlock
  · exact h'.exec hexec
  · exact h'.respond .nakIllegal 0
  · exact h'.sequencerStep hb
  · exact h'

/-- The invariant, and the configuration it stands under, along every execution from reset. -/
theorem State.Reachable.inv {p : Params} {s : State} (hp : p.Admitted) (hs : State.Reachable p s) :
    s.Inv ∧ s.params = p := by
  induction hs with
  | reset es => exact ⟨invariantHoldsAfterReset.2 p es hp, rfl⟩
  | step s t _ hstep ih =>
    obtain ⟨hinv, hparams⟩ := ih
    exact ⟨everyStepKeepsTheInvariant s t hinv hstep, (configurationIsImmutable s t hstep).trans hparams⟩

/-- Settles O52: the parts of the invariant, which every reachable state meets (`State.Reachable.inv`). -/
theorem reachableStatesMeetTheSpecsInvariants : Obligations.ReachableStatesMeetTheSpecsInvariants := by
  intro p s hp hs
  obtain ⟨h, rfl⟩ := hs.inv hp
  have hsym := h.symLen_le_k.trans h.k_le
  have henc := h.encLen_eq.trans_le (Nat.mul_le_mul_left 5 hsym)
  refine ⟨h.noResult, fun _ => h.encLen_eq, fun hb => ⟨h.busyChunk hb, h.nch_le_sMax⟩, fun hst => h.noError ?_, rfl,
    h.inLen_le, hsym, henc, h.k_le⟩
  rcases hst with hst | hst <;> rw [hst] <;> decide

end Sys2Proof.Machine
end

section

namespace Sys2Proof.Machine

/-! ### Which event can change what (R19, R21 to R25, R136) -/

theorem word_of_decode_clear {w : Word} (h : decode w = .ok .clear) : w = 0x40000000 :=
  (decode_eq_ok_iff.mp h).2.symm

section
variable {s t : State}

/-- A command leaves STATE and ERR_SYM, or it is the START or the CLEAR that discards the run. -/
theorem exec_state_cases {i : Instr} (h : exec i s = .next t) :
    (t.state = s.state ∧ t.errSym = s.errSym) ∨ (i = .start ∧ t.state = .busy) ∨ (i = .clear ∧ t.state = .idle) := by
  obtain ⟨_, ⟨_, _, rfl⟩ | ⟨_, _, _, _, _, rfl⟩ | ⟨_, _, _, _, rfl⟩ | ⟨hi, _, _, rfl⟩ | ⟨_, _, _, rfl⟩ | ⟨hi, rfl⟩⟩ :=
    exec_cases h
  case inr.inr.inr.inl => exact .inr (.inl ⟨hi, rfl⟩)
  case inr.inr.inr.inr.inr => exact .inr (.inr ⟨hi, rfl⟩)
  all_goals exact .inl ⟨rfl, rfl⟩

/-- A Sequencer step leaves STATE and ERR_SYM, commits, or raises the error of a Symbol the table lacks. -/
theorem State.sequencerStep_state_cases (s : State) :
    (s.sequencerStep.state = s.state ∧ s.sequencerStep.errSym = s.errSym) ∨ s.sequencerStep.state = .done ∨
      (s.sequencerStep.state = .error ∧ ∃ v, s.params.codeTable.entry v = none) := by
  obtain ⟨_, _, _, he⟩ | ⟨_, hc, he⟩ | ⟨_, he⟩ | ⟨_, he⟩ := s.sequencerStep_cases <;> rw [he]
  · exact .inl ⟨rfl, rfl⟩
  · exact .inr (.inr ⟨rfl, _, hc⟩)
  · exact .inr (.inl rfl)
  · exact .inl ⟨rfl, rfl⟩

/-- All that a step can do to STATE and ERR_SYM (R19, R136). -/
theorem step_state_cases (h : step s = .next t) :
    (t.state = s.state ∧ t.errSym = s.errSym) ∨
    (s.nextEvent.1 = .reset ∧ t.state = .idle) ∨
    (s.nextEvent.1 = .command 0x30000000 ∧ t.state = .busy) ∨
    (s.nextEvent.1 = .command 0x40000000 ∧ t.state = .idle) ∨
    (s.nextEvent.1 = .sequencer ∧ s.state = .busy ∧
      (t.state = .done ∨ (t.state = .error ∧ ∃ v, s.params.codeTable.entry v = none))) := by
  obtain ⟨s', rfl, hcases⟩ := step_cases h
  obtain ⟨he, rfl⟩ | ⟨w, i, he, hd, hexec⟩ | ⟨_, _, _, _, _, rfl⟩ | ⟨he, _, ⟨hb, rfl⟩ | ⟨_, rfl⟩⟩ := hcases
  · exact .inr (.inl ⟨he, rfl⟩)
  · obtain hkeep | ⟨rfl, ht⟩ | ⟨rfl, ht⟩ := exec_state_cases hexec
    · exact .inl hkeep
    · exact .inr (.inr (.inl ⟨word_of_decode_start hd ▸ he, ht⟩))
    · exact .inr (.inr (.inr (.inl ⟨word_of_decode_clear hd ▸ he, ht⟩)))
  · exact .inl ⟨rfl, rfl⟩
  · obtain hkeep | hend := State.sequencerStep_state_cases { s with events := s.nextEvent.2 }
    · exact .inl hkeep
    · exact .inr (.inr (.inr (.inr ⟨he, hb, hend⟩)))
  · exact .inl ⟨rfl, rfl⟩

end

/-- Settles O46: the cases of `step_state_cases` other than the one that leaves STATE. -/
theorem onlyTheStatedEventsChangeState : Obligations.OnlyTheStatedEventsChangeState := by
  intro s t h hne
  obtain ⟨hkeep, _⟩ | hreset | hstart | hclear | ⟨he, hb, hend⟩ := step_state_cases h
  · exact absurd hkeep hne
  · exact .inl hreset
  · exact .inr (.inl hstart)
  · exact .inr (.inr (.inl hclear))
  · exact .inr (.inr (.inr ⟨he, hb, hend.imp_right And.left⟩))

/-- Settles O49: in ERROR the Sequencer is not enabled, so of the cases of `step_state_cases` only the three named events
leave it; START and CLEAR discard the error (`State.discardRun`). -/
theorem errorPersistsUntilStartClearOrReset : Obligations.ErrorPersistsUntilStartClearOrReset := by
  refine ⟨fun s t herror h hreset hstart hclear => ?persists, fun s herror hf hw => ?start, fun s _ hf => ?clear⟩
  case persists =>
    obtain ⟨hstate, herr⟩ | ⟨he, _⟩ | ⟨he, _⟩ | ⟨he, _⟩ | ⟨_, hb, _⟩ := step_state_cases h
    · exact ⟨hstate.trans herror, herr⟩
    · exact absurd he hreset
    · exact absurd he hstart
    · exact absurd he hclear
    · cases herror.symm.trans hb
  case start => exact ⟨_, execStart_of_written hf (by rw [herror]; decide) hw, rfl, rfl⟩
  case clear => exact ⟨_, execClear_of_running hf, rfl, rfl⟩

/-- Settles O42: encode fails only with an absent Symbol (O38), and so does the step that enters ERROR
(`step_state_cases`). -/
theorem fullTableNeverRaisesUnknownSymbol : Obligations.FullTableNeverRaisesUnknownSymbol := by
  refine ⟨fun T bits hfull => ?encode, fun s t hfull h ht => ?machine⟩
  case encode =>
    cases henc : encodeBits T bits with
    | ok out => exact ⟨out, rfl⟩
    | error e =>
      obtain ⟨q, _, habsent, _⟩ := ((encodeReportsTheFirstAbsentSymbol T bits).1 e.symbol).mp henc
      exact absurd habsent (hfull e.symbol)
  case machine =>
    obtain ⟨hstate, _⟩ | ⟨_, hidle⟩ | ⟨_, hbusy⟩ | ⟨_, hidle⟩ | ⟨_, _, hdone | ⟨_, v, hv⟩⟩ := step_state_cases h
    · exact hstate.symm.trans ht
    · cases ht.symm.trans hidle
    · cases ht.symm.trans hbusy
    · cases ht.symm.trans hidle
    · cases ht.symm.trans hdone
    · exact absurd hv (hfull v)

/-- Which command can change IN_BUF or IN_LEN; no command changes SYM_BUF or ENC_BUF. -/
theorem exec_buffers {s t : State} {i : Instr} (h : exec i s = .next t) :
    (t.inBuf = s.inBuf ∨ ∃ a b, i = .load a b) ∧ (t.inLen = s.inLen ∨ ∃ n, i = .setlen n) ∧
      t.symBuf = s.symBuf ∧ t.encBuf = s.encBuf := by
  obtain ⟨_, ⟨_, _, rfl⟩ | ⟨a, b, hi, _, _, rfl⟩ | ⟨n, hi, _, _, rfl⟩ | ⟨_, _, _, rfl⟩ | ⟨_, _, _, rfl⟩ | ⟨_, rfl⟩⟩ :=
    exec_cases h
  case inr.inl => exact ⟨.inr ⟨a, b, hi⟩, .inl rfl, rfl, rfl⟩
  case inr.inr.inl => exact ⟨.inl rfl, .inr ⟨n, hi⟩, rfl, rfl⟩
  all_goals exact ⟨.inl rfl, .inl rfl, rfl, rfl⟩

/-- All that a step can do to the buffers and IN_LEN (R21 to R25). -/
theorem step_buffers {s t : State} (h : step s = .next t) :
    (t.inBuf = s.inBuf ∨ s.nextEvent.1 = .reset ∨ ∃ w a b, s.nextEvent.1 = .command w ∧ decode w = .ok (.load a b)) ∧
    (t.inLen = s.inLen ∨ s.nextEvent.1 = .reset ∨ ∃ w n, s.nextEvent.1 = .command w ∧ decode w = .ok (.setlen n)) ∧
    ((t.symBuf = s.symBuf ∧ t.encBuf = s.encBuf) ∨ s.nextEvent.1 = .reset ∨
      (s.nextEvent.1 = .sequencer ∧ s.state = .busy)) := by
  obtain ⟨s', rfl, hcases⟩ := step_cases h
  obtain ⟨he, _⟩ | ⟨w, i, he, hd, hexec⟩ | ⟨_, _, _, _, _, rfl⟩ | ⟨he, _, ⟨hb, rfl⟩ | ⟨_, rfl⟩⟩ := hcases
  · exact ⟨.inr (.inl he), .inr (.inl he), .inr (.inl he)⟩
  · obtain ⟨hin, hlen, hcoded⟩ := exec_buffers hexec
    exact ⟨hin.imp_right fun ⟨a, b, hi⟩ => .inr ⟨w, a, b, he, hi ▸ hd⟩,
      hlen.imp_right fun ⟨n, hi⟩ => .inr ⟨w, n, he, hi ▸ hd⟩, .inl hcoded⟩
  · exact ⟨.inl rfl, .inl rfl, .inl ⟨rfl, rfl⟩⟩
  · obtain ⟨hin, hlen, _⟩ := State.sequencerStep_frame { s with events := s.nextEvent.2 }
    exact ⟨.inl hin, .inl hlen, .inr (.inr ⟨he, hb⟩)⟩
  · exact ⟨.inl rfl, .inl rfl, .inl ⟨rfl, rfl⟩⟩

/-- Settles O47: a step that does not leave a buffer is one of those that `step_buffers` names. -/
theorem onlyTheStatedEventsWriteTheBuffers : Obligations.OnlyTheStatedEventsWriteTheBuffers := by
  intro s t h
  obtain ⟨hin, hlen, hcoded⟩ := step_buffers h
  exact ⟨hin.resolve_left, hlen.resolve_left,
    fun hne => hcoded.resolve_left fun ⟨hsym, henc⟩ => hne.elim (absurd hsym) (absurd henc)⟩

/-! ### The step of a command word (R124) -/

/-- Settles O6: a command event is a Host step (`step_of_command`), and that of a legal word is `exec`
(`hostStep_of_legal`). -/
theorem stepRunsTheDecodedCommand : Obligations.StepRunsTheDecodedCommand := fun _ _ _ _ he hd =>
  (step_of_command he).trans (hostStep_of_legal hd _)

/-! ### Outside DONE, and in BUSY (R107, R108) -/

/-- Settles O28: with both lengths 0 every index is out of range (`exec_of_outOfRange`). -/
theorem partialResultsAreUnreadable : Obligations.PartialResultsAreUnreadable := by
  intro s h hf hd
  obtain ⟨hsym, henc⟩ := h.noResult hd
  refine ⟨hsym, henc, fun x => ⟨?sym, ?enc⟩⟩
  case sym => exact exec_of_outOfRange hf (by simp [HasBusyCheck]) (by simp [State.OutOfRange, hsym])
  case enc => exact exec_of_outOfRange hf (by simp [HasBusyCheck]) (by simp [State.OutOfRange, henc])

/-- Settles O29: the invariant rules out the Sequencer step that does nothing (R33 (c)). -/
theorem busySequencerAlwaysMoves : Obligations.BusySequencerAlwaysMoves := by
  intro s es h hb hf he
  have hk : s.k ≤ s.nch := h.busyChunk hb
  refine ⟨_, step_of_sequencer_enabled he hb hf, ?_⟩
  obtain ⟨_, hlt, _, hstep⟩ | ⟨hlt, _, hstep⟩ | ⟨hlast, hstep⟩ | ⟨hgt, _⟩ :=
    State.sequencerStep_cases { s with events := es }
  · rw [hstep]
    exact ⟨hlt, .inl ⟨hlt, hb, rfl⟩⟩
  · rw [hstep]
    exact ⟨hk, .inr (.inl ⟨hlt, rfl, rfl⟩)⟩
  · rw [hstep]
    exact ⟨hk, .inr (.inr ⟨hlast, rfl, rfl⟩)⟩
  · exact absurd hgt hk.not_gt

/-! ### The encoded bits determine the Symbols (R78, R91) -/

theorem cwbits_injective : Function.Injective cwbits := by
  intro c d h
  refine BitVec.eq_of_getLsbD_eq fun i hi => ?_
  have hbit : c.extractLsb' (4 - (4 - i)) 1 = d.extractLsb' (4 - (4 - i)) 1 :=
    Option.some.inj (by rw [← cwbits_getElem? c (by omega), h, cwbits_getElem? d (by omega)])
  rw [Nat.sub_sub_self (by omega)] at hbit
  simpa using congrArg (BitVec.getLsbD · 0) hbit

/-- Codewords have one length, so their concatenation falls apart in one way. -/
theorem concatCodewords_injective : Function.Injective concatCodewords := by
  intro cs ds h
  induction cs generalizing ds with
  | nil =>
    have hlen := congrArg List.length h
    rw [concatCodewords_length, concatCodewords_length, List.length_nil] at hlen
    exact (List.length_eq_zero_iff.mp (by omega)).symm
  | cons c cs ih =>
    cases ds with
    | nil => cases h
    | cons d ds =>
      rw [concatCodewords_cons, concatCodewords_cons] at h
      obtain ⟨hc, hcs⟩ := List.append_inj h rfl
      rw [cwbits_injective hc, ih hcs]

/-- Under an admitted table a present codeword is that of one Symbol only (R78). -/
theorem entry_injective {T : CodeTable} (hT : T.Admitted) {v w : Symbol} {c : Codeword} (hv : T.entry v = some c)
    (hw : T.entry w = some c) : v = w := by
  by_contra hne
  exact hT v w hne (by rw [hv]; exact Option.some_ne_none c) (hv.trans hw.symm)

theorem lookupAll_injective {T : CodeTable} (hT : T.Admitted) {vs ws : List Symbol} {codes : List Codeword}
    (hv : lookupAll T vs = .ok codes) (hw : lookupAll T ws = .ok codes) : vs = ws := by
  refine List.ext_getElem ((lookupAll_length hv).symm.trans (lookupAll_length hw)) fun q hqv hqw => ?_
  obtain ⟨c, hc, hvc⟩ := lookupAll_getElem? hv (List.getElem?_eq_getElem hqv)
  obtain ⟨d, hd, hwd⟩ := lookupAll_getElem? hw (List.getElem?_eq_getElem hqw)
  obtain rfl : c = d := Option.some.inj (hc.symm.trans hd)
  exact entry_injective hT hvc hwd

/-- Settles O41: the bits determine the codewords (`concatCodewords_injective`), and these the Symbols
(`lookupAll_injective`). -/
theorem encodedBitsDetermineTheSymbols : Obligations.EncodedBitsDetermineTheSymbols := by
  intro T a b x y hT hx hy hbits
  obtain ⟨cs, hcs, rfl⟩ := encodeBits_eq_ok_iff.mp hx
  obtain ⟨ds, hds, rfl⟩ := encodeBits_eq_ok_iff.mp hy
  obtain rfl : cs = ds := concatCodewords_injective hbits
  exact lookupAll_injective hT hcs hds

/-! ### LOADBITS (R62) -/

/-- The words of LOADBITS' LOADs from index `a` on. -/
def loadEvents (bits : List Bit) (a : Nat) : List Event :=
  (bits.zipIdx a).map fun p => .command (encode (.load p.2 p.1))

theorem loadBits_events (bits : List Bit) :
    (loadBits bits).map (fun i => Event.command (encode i)) =
      loadEvents bits 0 ++ [.command (encode (.setlen bits.length))] := by
  rw [loadBits, List.map_append, List.map_map]
  rfl

section
variable {s : State}

theorem step_of_load {a : Nat} {b : Bit} {es : List Event} (he : s.events = .command (encode (.load a b)) :: es)
    (hf : s.fault = none) (hb : s.state ≠ .busy) (ha : a < s.params.nMax) (hmax : s.params.nMax ≤ 2 ^ 22) :
    step s = .next ((State.loadCell a b { s with events := es }).respond .ok 0) := by
  have hwf : (Instr.load a b).WellFormed := by change a < 2 ^ 24; omega
  rw [stepRunsTheDecodedCommand s _ es _ he (decodingInvertsEncoding _ hwf)]
  exact (exec_load_answer (s := { s with events := es }) hf a b).accepted hb ha

theorem step_of_setlen {n : Nat} {es : List Event} (he : s.events = .command (encode (.setlen n)) :: es)
    (hf : s.fault = none) (hb : s.state ≠ .busy) (hn : n ≤ s.params.nMax) (hmax : s.params.nMax ≤ 2 ^ 22) :
    step s = .next ((State.setInLen n { s with events := es }).respond .ok 0) := by
  have hwf : (Instr.setlen n).WellFormed := by change n < 2 ^ 24; omega
  rw [stepRunsTheDecodedCommand s _ es _ he (decodingInvertsEncoding _ hwf)]
  exact (exec_setlen_answer (s := { s with events := es }) hf n).accepted hb hn

/-- The LOADs write the given bits to consecutive cells, and only give responses besides. -/
theorem core_run_loads {bits : List Bit} {a n : Nat} {es : List Event} (he : s.events = loadEvents bits a ++ es)
    (hf : s.fault = none) (hb : s.state ≠ .busy) (ha : a + bits.length ≤ s.params.nMax)
    (hmax : s.params.nMax ≤ 2 ^ 22) :
    ∃ rs, Sys2Proof.core.run (bits.length + n) s =
      Sys2Proof.core.run n { s with inBuf := s.inBuf.writeSeq a bits, events := es, responses := rs } := by
  induction bits generalizing s a with
  | nil =>
    obtain rfl : s.events = es := he
    exact ⟨s.responses, by rw [List.length_nil, Nat.zero_add]; rfl⟩
  | cons b bits ih =>
    rw [List.length_cons] at ha ⊢
    rw [Nat.add_right_comm]
    let s' : State := { s with events := loadEvents bits (a + 1) ++ es }
    have hload : step s = .next ((s'.loadCell a b).respond .ok 0) := step_of_load he hf hb (by omega) hmax
    have ha' : a + 1 + bits.length ≤ s'.params.nMax := by rwa [Nat.add_right_comm]
    obtain ⟨rs, hrun⟩ := ih (s := (s'.loadCell a b).respond .ok 0) (a := a + 1) rfl hf hb ha' hmax
    exact ⟨rs, (core_run_succ _ hload).trans hrun⟩

/-- An input written whole from cell 0 on is the given Bitstream. -/
theorem State.inputBits_of_writeSeq {m : Memory 1} {bits : List Bit} (hin : s.inBuf = m.writeSeq 0 bits)
    (hlen : s.inLen = bits.length) : s.InputWritten ∧ s.inputBits = bits := by
  have hread {i : Nat} (hi : i < bits.length) : s.inBuf.read i = some bits[i] := by
    rw [hin, Memory.read_writeSeq, if_pos ⟨Nat.zero_le i, by rwa [Nat.zero_add]⟩, Nat.sub_zero,
      List.getElem?_eq_getElem hi]
  refine ⟨fun i hi => ?written, List.ext_getElem (s.inputBits_length.trans hlen) fun i hi hi' => ?bits⟩
  case written =>
    rw [hread (hlen ▸ hi)]
    exact Option.some_ne_none _
  case bits =>
    have hbit := s.inputBits_getElem? (s.inputBits_length ▸ hi)
    rw [List.getElem?_eq_getElem hi, State.inCell, hread hi', Option.getD_some] at hbit
    exact Option.some.inj hbit

end

/-- Settles O22: the LOADs by `core_run_loads`, the SETLEN after them by `step_of_setlen`, and what they leave by
`State.inputBits_of_writeSeq`. -/
theorem loadbitsLeavesTheGivenInput : Obligations.LoadbitsLeavesTheGivenInput := by
  intro s bits rest hf hb hlen hmax he
  rw [loadBits_events, List.append_assoc] at he
  obtain ⟨rs, hloads⟩ := core_run_loads (n := 1) he hf hb (by rwa [Nat.zero_add]) hmax
  let u : State := { s with inBuf := s.inBuf.writeSeq 0 bits, events := rest, responses := rs }
  have hsetlen : step { u with events := .command (encode (.setlen bits.length)) :: rest } =
      .next ((u.setInLen bits.length).respond .ok 0) := step_of_setlen rfl hf hb hlen hmax
  obtain ⟨hwritten, hbits⟩ :=
    State.inputBits_of_writeSeq (s := (u.setInLen bits.length).respond .ok 0) (m := s.inBuf) (bits := bits) rfl rfl
  exact ⟨_, hloads.trans (core_run_succ 0 hsetlen), rfl, hwritten, hbits, rfl, rfl⟩

end Sys2Proof.Machine
end
